-- ==== Sys2Proof/Word.lean ====
section
/-! DEFINITION. The value types of the block (00_scope.md R6, R7, R11): bytes, 32-bit words and 16-byte blocks. -/

namespace Sys2Proof

/-- An 8-bit value; bit 0 is the least significant (R6). -/
abbrev Byte := BitVec 8

/-- A 32-bit value: a register of the window or a command word (R5, R11). -/
abbrev Word := BitVec 32

/-- "A 16-byte sequence indexed 0..15" (R11); byte `i` is row `i mod 4`, column `i div 4` (10_state.md R22). -/
abbrev Block := Vector Byte 16

end Sys2Proof
end

