-- ==== Sys2Proof/Config.lean ====
section
/-! DEFINITION. What an implementation fixes (00_scope.md R5) and the free values of the model. A free value is an
opaque constant: no proof can see what it is. -/

namespace Sys2Proof.Config

/-- The slot the platform chose for the window; BASE is 64 times this (R5 "a multiple of 64"; U4). Log 1. -/
opaque baseSlot : Nat

/-- `BASE`, the bus address of offset 0 (00_scope.md R5, 20_memory.md R52). Log 1. -/
def base : Nat := 64 * baseSlot

/-- `LAT(op, N)` (R5, R38, R246): how many host accesses may be served while a command is pending. Its arguments are
the opcode and the RND field alone, so it cannot depend on data. "No rule of the model depends on the value of LAT"
(R246): only Machine/Latency.lean's premise for timing claims names it. Log 2. -/
opaque lat : BitVec 4 → BitVec 4 → Nat

/-- `ID_VALUE`, ASCII "AES1" (R5, 10_state.md R28). -/
def idValue : Word := 0x41455331

/-- `WINDOW_BYTES` (R5). -/
def windowBytes : Nat := 64

/-- `ANY_32` (20_memory.md R58; U1): the n-th draw, with no law. Log 5. -/
opaque anyWord : Nat → Word

/-- What PCMD holds once no command is pending (10_state.md R29; U9). Log 4. -/
opaque anyPcmd : Nat → Word

/-- What WKEY holds once no command is pending (10_state.md R30; U9). Log 4. -/
opaque anyWkey : Nat → Block

/-- What the hidden round counter holds once no command is pending (10_state.md R30; U9). Log 4. -/
opaque anyRound : Nat → BitVec 4

/-- What the platform answers to a read outside the window (20_memory.md R56; U6). Log 7. -/
opaque anyOutside : Nat → Word

/-- What a host variable holds before the host program writes it (30_encoding.md R83 gives no value). Log 9. -/
opaque hostVar : Nat → Word

end Sys2Proof.Config
end

