-- ==== Sys2Proof/Syntax.lean ====
section
/-! DEFINITION. The commands of the block: one constructor per row of spec/opcode_table.json (30_encoding.md R77). -/

namespace Sys2Proof

/-- A command with its operand fields as the word carries them (30_encoding.md R70-R76, R82). -/
inductive Instr where
  /-- 0x0 NOP (R180). -/
  | nop
  /-- 0x1 XTIME x (R108). -/
  | xtime (x : Byte)
  /-- 0x2 SBOX x (R109). -/
  | sbox (x : Byte)
  /-- 0x3 ISBOX y (R110). -/
  | isbox (y : Byte)
  /-- 0x4 RCON r (R111). -/
  | rcon (r : BitVec 4)
  /-- 0x5 SUBSHIFT (R127). -/
  | subshift
  /-- 0x6 MIXCOL (R128). -/
  | mixcol
  /-- 0x7 ADDKEY (R129). -/
  | addkey
  /-- 0x8 ROUND; `nomix` is bit 20, set to skip MixColumns (R74, R130). -/
  | round (nomix : Bool)
  /-- 0x9 KEYNEXT r (R148). -/
  | keynext (r : BitVec 4)
  /-- 0xA KEYPREV r (R149). -/
  | keyprev (r : BitVec 4)
  /-- 0xB ENCRYPT n; `nomix` set to omit MixColumns in the final round (R74, R164). -/
  | encrypt (n : BitVec 4) (nomix : Bool)
  deriving DecidableEq, Repr

/-- The command's mnemonic (30_encoding.md R77, R82). -/
def Instr.mnemonic : Instr → String
  | .nop => "NOP"
  | .xtime _ => "XTIME"
  | .sbox _ => "SBOX"
  | .isbox _ => "ISBOX"
  | .rcon _ => "RCON"
  | .subshift => "SUBSHIFT"
  | .mixcol => "MIXCOL"
  | .addkey => "ADDKEY"
  | .round _ => "ROUND"
  | .keynext _ => "KEYNEXT"
  | .keyprev _ => "KEYPREV"
  | .encrypt _ _ => "ENCRYPT"

end Sys2Proof
end

