-- ==== Sys2Proof/WellFormed.lean ====
section
/-! DEFINITION. Which command terms the hardware can be given: the RND ranges of 30_encoding.md R73. -/

namespace Sys2Proof

/-- A round index, legal for RCON, KEYNEXT and KEYPREV: 0..9 (R73). -/
def roundIndexOk (r : BitVec 4) : Bool := decide (r.toNat ≤ 9)

/-- A round count, legal for ENCRYPT: 1..10 (R73). -/
def roundCountOk (n : BitVec 4) : Bool := decide (1 ≤ n.toNat) && decide (n.toNat ≤ 10)

/-- Well-formed: the RND operand is in the opcode's range. Every other operand is legal at every value. -/
def Instr.wf : Instr → Bool
  | .nop => true
  | .xtime _ => true
  | .sbox _ => true
  | .isbox _ => true
  | .rcon r => roundIndexOk r
  | .subshift => true
  | .mixcol => true
  | .addkey => true
  | .round _ => true
  | .keynext r => roundIndexOk r
  | .keyprev r => roundIndexOk r
  | .encrypt n _ => roundCountOk n

end Sys2Proof
end

