-- ==== Sys2Proof/Decode.lean ====
section
/-! DEFINITION. Decoding of a command word, total and rejecting by name (30_encoding.md R70-R81), the encoder of R77, the
opcode table of R77 as data, and the host's entry `decodeTableWord`. -/

namespace Sys2Proof

/-- Why a word is no command (30_encoding.md R78, 60_exceptions.md R202-R204). -/
inductive Reject where
  /-- ERR_OP: a reserved opcode. -/
  | op
  /-- ERR_RSVD: a reserved bit, or a field the opcode does not use, is nonzero. -/
  | rsvd
  /-- ERR_ROUND: RND outside the opcode's range. -/
  | round
  deriving DecidableEq, Repr

/-- OP = v[3:0] (R70, R71). -/
def opField (v : Word) : BitVec 4 := v.extractLsb' 0 4

/-- The reserved bits [7:4] (R70, R75). -/
def lowReserved (v : Word) : BitVec 4 := v.extractLsb' 4 4

/-- IMM8 = v[15:8] (R72). -/
def imm8Field (v : Word) : Byte := v.extractLsb' 8 8

/-- RND = v[19:16] (R73). -/
def rndField (v : Word) : BitVec 4 := v.extractLsb' 16 4

/-- NOMIX = v[20] (R74). -/
def nomixField (v : Word) : Bool := v.getLsbD 20

/-- The reserved bits [31:21] (R70, R75). -/
def highReserved (v : Word) : BitVec 11 := v.extractLsb' 21 11

/-- `UNUSED(op)`: the bits of [20:8] the opcode does not use (R76). A reserved opcode is rejected before this is read. -/
def unusedMask (op : BitVec 4) : Word :=
  match op.toNat with
  | 0 | 5 | 6 | 7 => 0x001FFF00
  | 1 | 2 | 3 => 0x001F0000
  | 4 | 9 | 10 => 0x0010FF00
  | 8 => 0x000FFF00
  | 11 => 0x0000FF00
  | _ => 0

/-- Whether RND is in the opcode's range (R73, R81); opcodes that do not use RND put no bound here (R76 does). -/
def rndInRange (op : BitVec 4) (rnd : BitVec 4) : Bool :=
  match op.toNat with
  | 4 | 9 | 10 => roundIndexOk rnd
  | 11 => roundCountOk rnd
  | _ => true

/-- The command the opcode names, with the word's fields as operands; none for a reserved opcode (R71, R77). -/
def commandOf (v : Word) : Option Instr :=
  match (opField v).toNat with
  | 0 => some .nop
  | 1 => some (.xtime (imm8Field v))
  | 2 => some (.sbox (imm8Field v))
  | 3 => some (.isbox (imm8Field v))
  | 4 => some (.rcon (rndField v))
  | 5 => some .subshift
  | 6 => some .mixcol
  | 7 => some .addkey
  | 8 => some (.round (nomixField v))
  | 9 => some (.keynext (rndField v))
  | 10 => some (.keyprev (rndField v))
  | 11 => some (.encrypt (rndField v) (nomixField v))
  | _ => none

/-- `Decode(v)` of R81: opcode first, then reserved and unused bits, then the range of RND. -/
def decode (v : Word) : Except Reject Instr :=
  match commandOf v with
  | none => .error .op
  | some i =>
    if highReserved v ≠ 0 ∨ lowReserved v ≠ 0 then .error .rsvd
    else if v &&& unusedMask (opField v) ≠ 0 then .error .rsvd
    else if rndInRange (opField v) (rndField v) = false then .error .round
    else .ok i

/-- `Enc(op, imm8, rnd, nomix)` of R77, every value zero-extended to 32 bits. -/
def enc (op : BitVec 4) (imm8 : Byte) (rnd : BitVec 4) (nomix : Bool) : Word :=
  ((BitVec.ofBool nomix).setWidth 32 <<< 20) ||| (rnd.setWidth 32 <<< 16) ||| (imm8.setWidth 32 <<< 8)
    ||| op.setWidth 32

/-- The opcode numbers of R77. -/
def Instr.opcode : Instr → BitVec 4
  | .nop => 0x0
  | .xtime _ => 0x1
  | .sbox _ => 0x2
  | .isbox _ => 0x3
  | .rcon _ => 0x4
  | .subshift => 0x5
  | .mixcol => 0x6
  | .addkey => 0x7
  | .round _ => 0x8
  | .keynext _ => 0x9
  | .keyprev _ => 0xA
  | .encrypt _ _ => 0xB

/-- The word of a command (R77); the fields a command does not use are 0 (R76). -/
def encode (i : Instr) : Word :=
  match i with
  | .nop => enc i.opcode 0 0 false
  | .xtime x => enc i.opcode x 0 false
  | .sbox x => enc i.opcode x 0 false
  | .isbox y => enc i.opcode y 0 false
  | .rcon r => enc i.opcode 0 r false
  | .subshift => enc i.opcode 0 0 false
  | .mixcol => enc i.opcode 0 0 false
  | .addkey => enc i.opcode 0 0 false
  | .round m => enc i.opcode 0 0 m
  | .keynext r => enc i.opcode 0 r false
  | .keyprev r => enc i.opcode 0 r false
  | .encrypt n m => enc i.opcode 0 n m

/-- A row of the opcode map of R77: the pattern and its mask, and the bounds of its extra constraint on RND. -/
structure OpRow where
  mnemonic : String
  pattern : Word
  mask : Word
  rndLo : Nat
  rndHi : Nat
  deriving DecidableEq, Repr

/-- The opcode map of R77 (and spec/opcode_table.json), row by row. A row without a constraint has bounds 0..15. -/
def opTable : List OpRow :=
  [⟨"NOP", 0x00000000, 0xFFFFFFFF, 0, 15⟩,
   ⟨"XTIME", 0x00000001, 0xFFFF00FF, 0, 15⟩,
   ⟨"SBOX", 0x00000002, 0xFFFF00FF, 0, 15⟩,
   ⟨"ISBOX", 0x00000003, 0xFFFF00FF, 0, 15⟩,
   ⟨"RCON", 0x00000004, 0xFFF0FFFF, 0, 9⟩,
   ⟨"SUBSHIFT", 0x00000005, 0xFFFFFFFF, 0, 15⟩]
  ++
  [⟨"MIXCOL", 0x00000006, 0xFFFFFFFF, 0, 15⟩,
   ⟨"ADDKEY", 0x00000007, 0xFFFFFFFF, 0, 15⟩,
   ⟨"ROUND", 0x00000008, 0xFFEFFFFF, 0, 15⟩,
   ⟨"KEYNEXT", 0x00000009, 0xFFF0FFFF, 0, 9⟩,
   ⟨"KEYPREV", 0x0000000A, 0xFFF0FFFF, 0, 9⟩,
   ⟨"ENCRYPT", 0x0000000B, 0xFFE0FFFF, 1, 10⟩]

/-- `(v & mask) = match` for the row (R77). -/
def OpRow.fits (row : OpRow) (v : Word) : Bool := v &&& row.mask == row.pattern

/-- The row's extra constraint (R77). -/
def OpRow.constraint (row : OpRow) (v : Word) : Bool :=
  decide (row.rndLo ≤ (rndField v).toNat) && decide ((rndField v).toNat ≤ row.rndHi)

/-- "A word is a legal command exactly when `(v & mask) = match` for one row and that row's extra constraint holds" (R77). -/
def OpRow.accepts (row : OpRow) (v : Word) : Bool := row.fits v && row.constraint v

/-- The instruction the decoder reads from a table word. A command is one 32-bit word (R80), so the word's bits are the
number's; a command wider than 32 bits does not exist. -/
def decodeTableWord (nbits w : Nat) : Option Instr :=
  if nbits ≤ 32 then
    match decode (BitVec.ofNat 32 (w % 2 ^ nbits)) with
    | .ok i => some i
    | .error _ => none
  else none

end Sys2Proof
end

