-- ==== Sys2Proof/Machine/State.lean ====
section
/-! DEFINITION. The machine's state as plain data: every register of 10_state.md R20, the hidden registers of R29 and R30,
the host of 30_encoding.md R83, and the two fields of the model's own (which agent moves next, how many free values have
been drawn). The tables are constants and BASE is a parameter; neither is a field. -/

namespace Sys2Proof.Machine

/-- The word slots of the register window (20_memory.md R52; REG of 30_encoding.md R83, with the reserved slots). -/
inductive Reg where
  | cmd
  | status
  | result
  | id
  | stateW (k : Fin 4)
  | keyW (k : Fin 4)
  | reserved (k : Fin 4)
  deriving DecidableEq, Repr

/-- The width of a bus access: only `w32` is served (20_memory.md R54). -/
inductive Width where
  | w8
  | w16
  | w32
  | w64
  | burst
  deriving DecidableEq, Repr

/-- A statement of the host language (30_encoding.md R83), and the two bus primitives of 00_scope.md R9 with any width and
address, for the malformed and outside accesses of R54-R56 and R248 (log 8). Labels and variables are numbers. -/
inductive HostStmt where
  /-- `label:` -/
  | label (l : Nat)
  /-- `WR REG, v` -/
  | wr (r : Reg) (v : Word)
  /-- `RD t, REG` -/
  | rd (t : Nat) (r : Reg)
  /-- `TST t, m` -/
  | tst (t : Nat) (m : Word)
  /-- `BNZ label` -/
  | bnz (l : Nat)
  /-- `BZ label` -/
  | bz (l : Nat)
  /-- `HALT` -/
  | halt
  /-- `t <- MemRead(addr, width)` -/
  | memRead (t : Nat) (addr : Nat) (width : Width)
  /-- `MemWrite(addr, width, v)` -/
  | memWrite (addr : Nat) (width : Width) (v : Word)
  deriving DecidableEq, Repr

/-- The host (R4, R83): its program, its position in it, its variables (sorted by number, no repeats, those written so
far), its flag Z, and whether it has executed HALT (R249). -/
structure HostState where
  program : List HostStmt
  pc : Nat
  vars : List (Nat × Word)
  z : Bool
  halted : Bool
  deriving DecidableEq, Repr

/-- Which agent moves (R4): the host, the engine, or the environment's reset event. -/
inductive Turn where
  | host
  | engine
  | reset
  deriving DecidableEq, Repr

/-- The machine's state. -/
structure State where
  /-- STATE (R21). -/
  stateReg : Block
  /-- KEY (R23). -/
  keyReg : Block
  /-- RESULT (R24). -/
  result : Byte
  /-- STATUS.BUSY (R25). -/
  busy : Bool
  /-- STATUS.OVR (R25). -/
  ovr : Bool
  /-- STATUS.ERR (R25, R26). -/
  err : BitVec 4
  /-- PCMD, hidden (R29). -/
  pcmd : Word
  /-- WKEY, hidden (R30). -/
  wkey : Block
  /-- The round counter beside WKEY, hidden (R30); its width is a DESIGN CHOICE, log 15. -/
  wround : BitVec 4
  /-- The host (R83). -/
  host : HostState
  /-- Which agent moves next; the model's own, log 2. -/
  turns : List Turn
  /-- How many free values have been drawn; the model's own, log 5. -/
  draws : Nat
  deriving DecidableEq, Repr

/-- Why the machine stops with a fault. -/
inductive Fault where
  /-- `raise BusError(addr)` (60_exceptions.md R207): raised by a bus access of the host inside the window that is not an
  aligned 32-bit one. No state changes and the fault is never cleared. Safe: the run stops (log 6). -/
  | busError (addr : Nat)
  deriving DecidableEq, Repr

/-- Why the machine gives no next state. -/
inductive Refusal where
  /-- An arm of exec that has no meaning yet. Safe. No arm raises it. -/
  | notModelled (mnemonic : String)
  /-- Raised by the meanings of RCON, KEYNEXT, KEYPREV and ENCRYPT for a command term whose RND is out of range, which no
  word decodes to (30_encoding.md R73). Safe, log 11. -/
  | illFormedCommand
  /-- Raised by the engine's step when BUSY = 1 and PCMD is no legal command, which no acceptance leaves (10_state.md R35).
  Safe, log 11. -/
  | pendingNotLegal
  /-- Raised by BNZ or BZ of a host program that does not define the label. Safe, log 10. -/
  | undefinedLabel (l : Nat)
  deriving DecidableEq, Repr

/-- The host with no program: it makes no access (log 9). -/
def HostState.idle : HostState :=
  { program := [], pc := 0, vars := [], z := false, halted := false }

/-- The machine right after reset (10_state.md R34, 70_reset_and_hazards.md R230). PCMD, WKEY and the round counter are
unspecified there: their values here are a DESIGN CHOICE (log 3); so are the host's and the model's own fields (log 2, 5, 9). -/
def State.reset : State :=
  { stateReg := Vector.replicate 16 0
    keyReg := Vector.replicate 16 0
    result := 0
    busy := false
    ovr := false
    err := 0
    pcmd := 0
    wkey := Vector.replicate 16 0
    wround := 0
    host := HostState.idle
    turns := []
    draws := 0 }

end Sys2Proof.Machine
end

