-- ==== Sys2Proof/Machine/Flags.lean ====
section
/-! DEFINITION. STATUS: the word the host reads, the ERR codes, and every way a status field is written (10_state.md R25, R26,
R32; 44_control.md R182; 60_exceptions.md R201-R206). There are no condition codes (R32). -/

namespace Sys2Proof.Machine

/-- ERR = 0, OK (R26). -/
def errOk : BitVec 4 := 0

/-- The ERR code of a rejection (R26, 60_exceptions.md R202-R204). -/
def errCode : Reject → BitVec 4
  | .op => 1
  | .rsvd => 2
  | .round => 3

/-- STATUS as the host reads it (20_memory.md R58); bits 3:2 and 31:8 read 0 (R25). -/
def statusWord (s : State) : Word :=
  (s.err.setWidth 32 <<< 4) ||| ((BitVec.ofBool s.ovr).setWidth 32 <<< 1) ||| (BitVec.ofBool s.busy).setWidth 32

/-- `raise CmdError(code)`: the rejection writes STATUS.ERR and nothing else (00_scope.md R10, 60_exceptions.md R201). -/
def State.reject (s : State) (why : Reject) : State := { s with err := errCode why }

/-- A dropped write sets OVR and nothing else (60_exceptions.md R206). -/
def State.overrun (s : State) : State := { s with ovr := true }

/-- A host write of `v` to STATUS clears OVR if bit 1 of `v` is 1; every other bit is ignored (44_control.md R182). -/
def State.clearOverrun (s : State) (v : Word) : State :=
  if v.getLsbD 1 then { s with ovr := false } else s

end Sys2Proof.Machine
end

