-- ==== Sys2Proof/Machine/Operands.lean ====
section
/-! DEFINITION. The operand forms: bytes of a word, the byte, matrix and word views of a block (10_state.md R22, R23, R39;
20_memory.md R53), and the RND operand of a command (30_encoding.md R73). -/

namespace Sys2Proof.Machine

/-- Byte `j` of a word, `j = 0` the first byte, bits [31:24] (R23, R53). -/
def wordByte (w : Word) (j : Nat) : Byte := w.extractLsb' (24 - 8 * j) 8

/-- `a0 ++ a1 ++ a2 ++ a3`: four bytes, the first in the most significant place (R22, R53). -/
def wordOfBytes (a0 a1 a2 a3 : Byte) : Word := a0 ++ a1 ++ a2 ++ a3

/-- A block given byte by byte. -/
def blockOfFn (f : Fin 16 → Byte) : Block := Vector.ofFn f

/-- Byte `i mod 16` of a block; the views below name bytes by arithmetic on indexes. -/
def byteAt (b : Block) (i : Nat) : Byte := b[i % 16]'(Nat.mod_lt i (by decide))

/-- The matrix view `m[r][c] = b[r + 4c]` (R22). -/
def matrixAt (b : Block) (r c : Nat) : Byte := byteAt b (r + 4 * c)

/-- Word `k`: bytes `4k .. 4k+3`, big-endian (R22, R23, R53). -/
def blockWord (b : Block) (k : Fin 4) : Word :=
  wordOfBytes (byteAt b (4 * k)) (byteAt b (4 * k + 1)) (byteAt b (4 * k + 2)) (byteAt b (4 * k + 3))

/-- The block of four words `w0 ++ w1 ++ w2 ++ w3` (R23). -/
def blockOfWords (w0 w1 w2 w3 : Word) : Block :=
  blockOfFn fun i => wordByte (#v[w0, w1, w2, w3][i.val / 4]'(by omega)) (i.val % 4)

/-- A host write of word `k`: its four bytes replaced, every other byte kept (20_memory.md R59). -/
def setBlockWord (b : Block) (k : Fin 4) (v : Word) : Block :=
  blockOfFn fun i => if i.val / 4 = k.val then wordByte v (i.val % 4) else byteAt b i.val

/-- A round index operand, 0..9 (R73). -/
def roundIndex (r : BitVec 4) : Option (Fin 10) :=
  if h : r.toNat < 10 then some ⟨r.toNat, h⟩ else none

/-- A round count operand, 1..10 (R73). -/
def roundCount (n : BitVec 4) : Option Nat :=
  if roundCountOk n then some n.toNat else none

/-- Run with a round index, or refuse the ill-formed term (log 11). -/
def withRoundIndex (r : BitVec 4) (run : Fin 10 → Host.Outcome State Fault Refusal) :
    Host.Outcome State Fault Refusal :=
  match roundIndex r with
  | some i => run i
  | none => .refused .illFormedCommand

/-- Run with a round count, or refuse the ill-formed term (log 11). -/
def withRoundCount (n : BitVec 4) (run : Nat → Host.Outcome State Fault Refusal) :
    Host.Outcome State Fault Refusal :=
  match roundCount n with
  | some k => run k
  | none => .refused .illFormedCommand

end Sys2Proof.Machine
end

