-- ==== Sys2Proof/Machine/Ops.lean ====
section
/-! DEFINITION. The named operations over registers: the command lifecycle (10_state.md R35, R36), the register window
(20_memory.md R52-R59), the bus (R54-R56, 60_exceptions.md R207), reset (70_reset_and_hazards.md R230) and the host's own
variables (30_encoding.md R83). The block has no traps (60_exceptions.md R210): `State.reject`, `State.overrun` and
the fault `busError` are all its abnormal events (R200), and nothing returns from them (R211). -/

namespace Sys2Proof.Machine

/-- The hidden registers hold any value while nothing is pending (10_state.md R29, R30, R34; U9). Log 4. -/
def State.forgetHidden (s : State) : State :=
  { s with
    pcmd := Config.anyPcmd s.draws
    wkey := Config.anyWkey s.draws
    wround := Config.anyRound s.draws
    draws := s.draws + 1 }

/-- Acceptance (R35): PCMD <- v, ERR <- 0, BUSY <- 1; no data register changes. -/
def State.accept (s : State) (v : Word) : State :=
  { s with pcmd := v, err := errOk, busy := true }

/-- Completion (R36): STATE, KEY, RESULT and BUSY <- 0 together in one step; OVR and ERR do not change. -/
def State.complete (s : State) (st key : Block) (res : Byte) : State :=
  State.forgetHidden { s with stateReg := st, keyReg := key, result := res, busy := false }

/-- `CommandWrite(v)` (60_exceptions.md R208): dropped while busy, else rejected with one code, else accepted. -/
def commandWrite (v : Word) (s : State) : State :=
  if s.busy then s.overrun
  else
    match decode v with
    | .error why => s.reject why
    | .ok _ => s.accept v

/-- The reset event (R230): every register of the block to its reset value, a pending command aborted. PCMD, WKEY and the
round counter are unspecified after it, so they are drawn (log 4); the host and the turns are not the block's. -/
def State.applyReset (s : State) : State :=
  State.forgetHidden
    { s with
      stateReg := Vector.replicate 16 0
      keyReg := Vector.replicate 16 0
      result := 0
      busy := false
      ovr := false
      err := 0 }

/-- Offsets of the register window (20_memory.md R52). -/
def regOffset : Reg → Nat
  | .cmd => 0x00
  | .status => 0x04
  | .result => 0x08
  | .id => 0x0C
  | .stateW k => 0x10 + 4 * k.val
  | .keyW k => 0x20 + 4 * k.val
  | .reserved k => 0x30 + 4 * k.val

/-- The bus address of a register: BASE + off(REG) (30_encoding.md R83). -/
def regAddr (r : Reg) : Nat := Config.base + regOffset r

/-- The word slot at an aligned offset of the window (R52). -/
def regAt (off : Nat) : Reg :=
  match off / 4 with
  | 0 => .cmd
  | 1 => .status
  | 2 => .result
  | 3 => .id
  | 4 => .stateW 0
  | 5 => .stateW 1
  | 6 => .stateW 2
  | 7 => .stateW 3
  | 8 => .keyW 0
  | 9 => .keyW 1
  | 10 => .keyW 2
  | 11 => .keyW 3
  | 12 => .reserved 0
  | 13 => .reserved 1
  | 14 => .reserved 2
  | _ => .reserved 3

/-- `HostRead(off)` (20_memory.md R58). A data register read while BUSY = 1 gives ANY_32, the next draw (R241). -/
def hostRead (r : Reg) (s : State) : Word :=
  match r with
  | .cmd => 0
  | .status => statusWord s
  | .result => if s.busy then Config.anyWord s.draws else s.result.setWidth 32
  | .id => Config.idValue
  | .stateW k => if s.busy then Config.anyWord s.draws else blockWord s.stateReg k
  | .keyW k => if s.busy then Config.anyWord s.draws else blockWord s.keyReg k
  | .reserved _ => 0

/-- `HostWrite(off, v)` (20_memory.md R59). -/
def hostWrite (r : Reg) (v : Word) (s : State) : State :=
  match r with
  | .cmd => commandWrite v s
  | .status => s.clearOverrun v
  | .result => s
  | .id => s
  | .stateW k => if s.busy then s.overrun else { s with stateReg := setBlockWord s.stateReg k v }
  | .keyW k => if s.busy then s.overrun else { s with keyReg := setBlockWord s.keyReg k v }
  | .reserved _ => s

/-- What the block makes of a bus access. -/
inductive Access where
  /-- Outside the window: not the block's (20_memory.md R56). -/
  | outside
  /-- Inside the window, but not an aligned 32-bit access (R54, R55). -/
  | malformed
  /-- Served at a register. -/
  | served (r : Reg)
  deriving DecidableEq, Repr

/-- Whether an address lies in `BASE .. BASE+0x3F` (R50, R56). -/
def inWindow (addr : Nat) : Bool :=
  decide (Config.base ≤ addr) && decide (addr < Config.base + Config.windowBytes)

/-- Sort a bus access by its address, then its width and alignment (R54-R56). -/
def classify (addr : Nat) (width : Width) : Access :=
  if inWindow addr = false then .outside
  else if width ≠ .w32 ∨ (addr - Config.base) % 4 ≠ 0 then .malformed
  else .served (regAt (addr - Config.base))

/-- The value of a host variable; one not written yet is a free value (log 9). -/
def readVar (vars : List (Nat × Word)) (t : Nat) : Word :=
  match vars with
  | [] => Config.hostVar t
  | (u, w) :: rest => if u = t then w else readVar rest t

/-- Write a host variable, keeping the list sorted by number with no repeats. -/
def writeVar (vars : List (Nat × Word)) (t : Nat) (v : Word) : List (Nat × Word) :=
  match vars with
  | [] => [(t, v)]
  | (u, w) :: rest =>
    if t < u then (t, v) :: (u, w) :: rest
    else if t = u then (t, v) :: rest
    else (u, w) :: writeVar rest t v

/-- The host takes in the answer of a read: `t <- v`. A read uses up one draw, so draws are independent (R61). -/
def State.takeAnswer (s : State) (t : Nat) (v : Word) : State :=
  { s with host := { s.host with vars := writeVar s.host.vars t v }, draws := s.draws + 1 }

/-- `t <- MemRead(addr, width)` (00_scope.md R9; 20_memory.md R54-R58; 60_exceptions.md R207). -/
def busRead (t : Nat) (addr : Nat) (width : Width) (s : State) : Host.Outcome State Fault Refusal :=
  match classify addr width with
  | .outside => .next (s.takeAnswer t (Config.anyOutside s.draws))
  | .malformed => .fault (.busError addr)
  | .served r => .next (s.takeAnswer t (hostRead r s))

/-- `MemWrite(addr, width, v)` (00_scope.md R9; 20_memory.md R54-R56, R59; 60_exceptions.md R207). -/
def busWrite (addr : Nat) (width : Width) (v : Word) (s : State) : Host.Outcome State Fault Refusal :=
  match classify addr width with
  | .outside => .next s
  | .malformed => .fault (.busError addr)
  | .served r => .next (hostWrite r v s)

/-- The agent that moves next: the listed one, else the engine if a command is pending (R38), else the host. Log 2. -/
def State.nextTurn (s : State) : Turn :=
  match s.turns with
  | t :: _ => t
  | [] => if s.busy then .engine else .host

/-- The state with that turn taken off the list. -/
def State.takeTurn (s : State) : State := { s with turns := s.turns.tail }

end Sys2Proof.Machine
end

