-- ==== Sys2Proof/Machine/Control.lean ====
section
/-! DEFINITION. The control family (44_control.md): the command NOP. Clearing OVR is a host write to STATUS, in Flags.lean. -/

namespace Sys2Proof.Machine

/-- NOP (R180): nothing is written at completion except BUSY <- 0. -/
def execNop (s : State) : Host.Outcome State Fault Refusal :=
  .next (s.complete s.stateReg s.keyReg s.result)

end Sys2Proof.Machine
end

