-- ==== Sys2Proof/Machine/KeySchedule.lean ====
section
/-! DEFINITION. The key schedule in both directions (42_key_schedule.md R140-R147), and the commands KEYNEXT and KEYPREV. -/

namespace Sys2Proof.Machine

/-- `RotWord` (R140): left by one byte, `rotl8_32(w) = w[23:0] ++ w[31:24]` (00_scope.md R7). -/
def rotWord (w : Word) : Word := w.extractLsb' 0 24 ++ w.extractLsb' 24 8

/-- `SubWord` (R141): the S-box on each byte. -/
def subWord (w : Word) : Word :=
  wordOfBytes (romS (wordByte w 0)) (romS (wordByte w 1)) (romS (wordByte w 2)) (romS (wordByte w 3))

/-- `RC(r)`: the round constant in the first byte (R142). -/
def rconWord (r : Fin 10) : Word := (romRcon r).setWidth 32 <<< 24

/-- The mixing term `T(w3, r) = SubWord(RotWord(w3)) ⊕ RC(r)` (R142). -/
def keyMix (w3 : Word) (r : Fin 10) : Word := subWord (rotWord w3) ^^^ rconWord r

/-- `KeyNext` (R143): words 0 to 3 in order, each from the already updated one before it; T reads the old w3. -/
def keyNext (k : Block) (r : Fin 10) : Block :=
  let w0 := blockWord k 0 ^^^ keyMix (blockWord k 3) r
  let w1 := blockWord k 1 ^^^ w0
  let w2 := blockWord k 2 ^^^ w1
  let w3 := blockWord k 3 ^^^ w2
  blockOfWords w0 w1 w2 w3

/-- `KeyPrev` (R144): words 3, 2, 1 from their not yet reverted neighbours, then word 0; T reads the reverted w3. -/
def keyPrev (k : Block) (r : Fin 10) : Block :=
  let w3 := blockWord k 3 ^^^ blockWord k 2
  let w2 := blockWord k 2 ^^^ blockWord k 1
  let w1 := blockWord k 1 ^^^ blockWord k 0
  let w0 := blockWord k 0 ^^^ keyMix w3 r
  blockOfWords w0 w1 w2 w3

/-- The chain of R146: `key[0]` is the master key and `key[r+1] = KeyNext(key[r], r)`, for the first `n` transitions
(there are ten: 0..9). -/
def keyChain (k : Block) (n : Nat) : Block := ((List.finRange 10).take n).foldl keyNext k

/-- KEYNEXT (R148): KEY in place. -/
def execKeynext (r : BitVec 4) (s : State) : Host.Outcome State Fault Refusal :=
  withRoundIndex r fun i => .next (s.complete s.stateReg (keyNext s.keyReg i) s.result)

/-- KEYPREV (R149): KEY in place. -/
def execKeyprev (r : BitVec 4) (s : State) : Host.Outcome State Fault Refusal :=
  withRoundIndex r fun i => .next (s.complete s.stateReg (keyPrev s.keyReg i) s.result)

end Sys2Proof.Machine
end

