-- ==== Sys2Proof/Machine/Round.lean ====
section
/-! DEFINITION. The round function and its steps (41_round.md R120-R126), and the commands SUBSHIFT, MIXCOL, ADDKEY and ROUND. -/

namespace Sys2Proof.Machine

/-- `SubShift` (R120): SubBytes and ShiftRows fused; the element of row r, column c comes from column (c + r) mod 4. -/
def subShift (s : Block) : Block :=
  blockOfFn fun i => romS (matrixAt s (i.val % 4) ((i.val / 4 + i.val % 4) % 4))

/-- SubBytes alone: the S-box on each byte (R121). -/
def subBytes (s : Block) : Block := blockOfFn fun i => romS (byteAt s i.val)

/-- ShiftRows alone: row r left-rotated by r (R120, R121). -/
def shiftRows (s : Block) : Block :=
  blockOfFn fun i => matrixAt s (i.val % 4) ((i.val / 4 + i.val % 4) % 4)

/-- One output byte of MixColumns: `a_i ⊕ t ⊕ xtime(a_i ⊕ a_{(i+1) mod 4})`, where t is the XOR of the column (R122). -/
def mixByte (a : Nat → Byte) (i : Nat) : Byte :=
  a i ^^^ (a 0 ^^^ a 1 ^^^ a 2 ^^^ a 3) ^^^ xtime (a i ^^^ a ((i + 1) % 4))

/-- `MixColumns` (R122), applied to all four columns. -/
def mixColumns (s : Block) : Block :=
  blockOfFn fun i => mixByte (fun r => matrixAt s r (i.val / 4)) (i.val % 4)

/-- One output byte of the inverse of MixColumns, the circulant matrix with first row `0e 0b 0d 09` (R123 (d), from general
knowledge, log 14). No command applies it. -/
def invMixByte (a : Nat → Byte) (i : Nat) : Byte :=
  gfMul (a i) 0x0E ^^^ gfMul (a ((i + 1) % 4)) 0x0B ^^^ gfMul (a ((i + 2) % 4)) 0x0D ^^^ gfMul (a ((i + 3) % 4)) 0x09

/-- The inverse of MixColumns (R123 (d)). No command applies it. -/
def invMixColumns (s : Block) : Block :=
  blockOfFn fun i => invMixByte (fun r => matrixAt s r (i.val / 4)) (i.val % 4)

/-- `AddRoundKey` (R124). -/
def addRoundKey (s k : Block) : Block := blockOfFn fun i => byteAt s i.val ^^^ byteAt k i.val

/-- `RoundFn` (R125): SubShift, MixColumns unless `nomix`, AddRoundKey. -/
def roundFn (s k : Block) (nomix : Bool) : Block :=
  let u := subShift s
  let u := if nomix then u else mixColumns u
  addRoundKey u k

/-- SUBSHIFT (R127). -/
def execSubshift (s : State) : Host.Outcome State Fault Refusal :=
  .next (s.complete (subShift s.stateReg) s.keyReg s.result)

/-- MIXCOL (R128). -/
def execMixcol (s : State) : Host.Outcome State Fault Refusal :=
  .next (s.complete (mixColumns s.stateReg) s.keyReg s.result)

/-- ADDKEY (R129). -/
def execAddkey (s : State) : Host.Outcome State Fault Refusal :=
  .next (s.complete (addRoundKey s.stateReg s.keyReg) s.keyReg s.result)

/-- ROUND (R130): KEY is the round key and is not advanced. -/
def execRound (nomix : Bool) (s : State) : Host.Outcome State Fault Refusal :=
  .next (s.complete (roundFn s.stateReg s.keyReg nomix) s.keyReg s.result)

end Sys2Proof.Machine
end

