-- ==== Sys2Proof/Machine/Driver.lean ====
section
/-! DEFINITION. The block encryption driver (43_block_driver.md R160-R165) and the command ENCRYPT. -/

namespace Sys2Proof.Machine

/-- One turn of step 3 of R160: round i with MixColumns on, then the key of round i + 1. -/
def midRound (sw : Block × Block) (i : Fin 10) : Block × Block :=
  (roundFn sw.1 sw.2 false, keyNext sw.2 i)

/-- The loop indexes `1 .. n-1` of R160's step 3; none when n = 1. -/
def midIndexes (n : Nat) : List (Fin 10) := ([1, 2, 3, 4, 5, 6, 7, 8, 9] : List (Fin 10)).take (n - 1)

/-- `Encrypt(p, k, n, nomix)` (R160), n in 1..10: whitening, key[1], rounds 1..n-1 with MixColumns, then round n with
MixColumns unless `nomix`. -/
def encryptBlock (p k : Block) (n : Nat) (nomix : Bool) : Block :=
  let sw := (midIndexes n).foldl midRound (addRoundKey p k, keyNext k 0)
  roundFn sw.1 sw.2 nomix

/-- ENCRYPT (R164): STATE under the master key in KEY; KEY and RESULT are unchanged. -/
def execEncrypt (n : BitVec 4) (nomix : Bool) (s : State) : Host.Outcome State Fault Refusal :=
  withRoundCount n fun k => .next (s.complete (encryptBlock s.stateReg s.keyReg k nomix) s.keyReg s.result)

end Sys2Proof.Machine
end

