-- ==== Sys2Proof/Machine/Dispatch.lean ====
section
/-! DEFINITION. Exec of 10_state.md R37: one arm per command. -/

namespace Sys2Proof.Machine

def exec (i : Instr) (s : State) : Host.Outcome State Fault Refusal :=
  match i with
  | .nop => Sys2Proof.Machine.execNop s
  | .xtime x => Sys2Proof.Machine.execXtime x s
  | .sbox x => Sys2Proof.Machine.execSbox x s
  | .isbox y => Sys2Proof.Machine.execIsbox y s
  | .rcon r => Sys2Proof.Machine.execRcon r s
  | .subshift => Sys2Proof.Machine.execSubshift s
  | .mixcol => Sys2Proof.Machine.execMixcol s
  | .addkey => Sys2Proof.Machine.execAddkey s
  | .round nomix => Sys2Proof.Machine.execRound nomix s
  | .keynext r => Sys2Proof.Machine.execKeynext r s
  | .keyprev r => Sys2Proof.Machine.execKeyprev r s
  | .encrypt n nomix => Sys2Proof.Machine.execEncrypt n nomix s

end Sys2Proof.Machine
end

