-- ==== Sys2Proof/Machine/Agents.lean ====
section
/-! DEFINITION. What each agent does on its turn (00_scope.md R4): the engine completes the pending command (10_state.md
R36), the host executes its next statement (30_encoding.md R83), reset applies the reset values (70_reset_and_hazards.md R230). -/

namespace Sys2Proof.Machine

/-- The engine's step (R36): Exec of the pending word. Not enabled while BUSY = 0: then nothing happens (log 2). -/
def engineTurn (s : State) : Host.Outcome State Fault Refusal :=
  if s.busy then
    match decode s.pcmd with
    | .ok i => exec i s
    | .error _ => .refused .pendingNotLegal
  else .next s

/-- The position of `label:` in a host program, counted from `pos`. -/
def findLabel (program : List HostStmt) (l : Nat) (pos : Nat) : Option Nat :=
  match program with
  | [] => none
  | st :: rest => if st = .label l then some pos else findLabel rest l (pos + 1)

/-- The host goes on to its next statement. -/
def State.hostNext (s : State) : State :=
  { s with host := { s.host with pc := s.host.pc + 1 } }

/-- The host continues at a label (R83), or the program is refused if it does not define it (log 10). -/
def hostJump (l : Nat) (s : State) : Host.Outcome State Fault Refusal :=
  match findLabel s.host.program l 0 with
  | some pos => .next { s with host := { s.host with pc := pos } }
  | none => .refused (.undefinedLabel l)

/-- One statement of the host language (R83). -/
def hostExec (st : HostStmt) (s : State) : Host.Outcome State Fault Refusal :=
  match st with
  | .label _ => .next s.hostNext
  | .wr r v => busWrite (regAddr r) .w32 v s.hostNext
  | .rd t r => busRead t (regAddr r) .w32 s.hostNext
  | .tst t m =>
    .next { s.hostNext with host := { s.hostNext.host with z := readVar s.host.vars t &&& m == 0 } }
  | .bnz l => if s.host.z then .next s.hostNext else hostJump l s
  | .bz l => if s.host.z then hostJump l s else .next s.hostNext
  | .halt => .next { s with host := { s.host with halted := true } }
  | .memRead t addr width => busRead t addr width s.hostNext
  | .memWrite addr width v => busWrite addr width v s.hostNext

/-- The host's next statement; none if it has halted or its program has no more. -/
def State.hostStmt (s : State) : Option HostStmt :=
  if s.host.halted then none else s.host.program[s.host.pc]?

/-- The host's turn: its next statement, or nothing. -/
def hostTurn (s : State) : Host.Outcome State Fault Refusal :=
  match s.hostStmt with
  | some st => hostExec st s
  | none => .next s

/-- The agent's move. -/
def runTurn (t : Turn) (s : State) : Host.Outcome State Fault Refusal :=
  match t with
  | .engine => engineTurn s
  | .host => hostTurn s
  | .reset => .next s.applyReset

end Sys2Proof.Machine
end

