-- ==== Sys2Proof/Machine/Step.lean ====
section
/-! DEFINITION. One step of the machine: the agent that moves next makes its move (00_scope.md R4, 20_memory.md R63). -/

namespace Sys2Proof.Machine

/-- One step: the next agent's move (log 2). -/
def step (s : State) : Host.Outcome State Fault Refusal := runTurn s.nextTurn s.takeTurn

/-- The state in which the word has just been written to CMD with no other command pending, and the engine moves next, so
that the next step runs exactly that command (log 12). A word that is no command is rejected by that write, as R208 says. -/
def State.withFetchWord (s : State) (nbits w : Nat) : State :=
  { commandWrite (BitVec.ofNat 32 (w % 2 ^ nbits)) { s with busy := false } with turns := .engine :: s.turns }

end Sys2Proof.Machine
end

