-- ==== Sys2Proof/Machine/HostPrograms.lean ====
section
/-! DEFINITION. What the host writes its programs in: the assembler of 30_encoding.md R82, the pseudo-instructions of R84 as
statements of the host language, and the host-side procedures of 43_block_driver.md R170-R173 as pure functions. No rule of the
block depends on this file. -/

namespace Sys2Proof.Machine

/-- A command as it is written (R82), its operands numbers; `nomix` may be absent. Text is not modelled (log 20). -/
inductive Asm where
  | nop
  | xtime (x : Nat)
  | sbox (x : Nat)
  | isbox (x : Nat)
  | rcon (r : Nat)
  | subshift
  | mixcol
  | addkey
  | round (nomix : Option Nat)
  | keynext (r : Nat)
  | keyprev (r : Nat)
  | encrypt (n : Nat) (nomix : Option Nat)
  deriving DecidableEq, Repr

/-- A byte operand, 0..255; out of range is refused, never truncated (R82). -/
def asmByte (x : Nat) : Option Byte := if x < 256 then some (BitVec.ofNat 8 x) else none

/-- A round operand between two bounds (R82). -/
def asmRound (lo hi r : Nat) : Option (BitVec 4) :=
  if lo ≤ r ∧ r ≤ hi then some (BitVec.ofNat 4 r) else none

/-- The `nomix=` operand: 0 or 1, and absent means 0 (R82). -/
def asmNomix : Option Nat → Option Bool
  | none => some false
  | some 0 => some false
  | some 1 => some true
  | some _ => none

/-- The command an assembler line stands for, or none where an operand is out of range (R82). -/
def Asm.command : Asm → Option Instr
  | .nop => some .nop
  | .xtime x => (asmByte x).map .xtime
  | .sbox x => (asmByte x).map .sbox
  | .isbox x => (asmByte x).map .isbox
  | .rcon r => (asmRound 0 9 r).map .rcon
  | .subshift => some .subshift
  | .mixcol => some .mixcol
  | .addkey => some .addkey
  | .round m => (asmNomix m).map .round
  | .keynext r => (asmRound 0 9 r).map .keynext
  | .keyprev r => (asmRound 0 9 r).map .keyprev
  | .encrypt n m => (asmRound 1 10 n).bind fun k => (asmNomix m).map (.encrypt k)

/-- The word of an assembler line (R82). -/
def Asm.assemble (a : Asm) : Option Word := a.command.map encode

/-- `CMD <command>` (R84). -/
def cmdStmts (i : Instr) : List HostStmt := [.wr .cmd (encode i)]

/-- A number above the label that the statement defines or branches to; 0 for a statement with no label. -/
def HostStmt.labelBound : HostStmt → Nat
  | .label l => l + 1
  | .bnz l => l + 1
  | .bz l => l + 1
  | .wr _ _ => 0
  | .rd _ _ => 0
  | .tst _ _ => 0
  | .halt => 0
  | .memRead _ _ _ => 0
  | .memWrite _ _ _ => 0

/-- A label that no statement of the program defines or branches to, for `POLL`'s "fresh label" (R84). Which one is a DESIGN
CHOICE, log 21. -/
def freshLabel : List HostStmt → Nat
  | [] => 0
  | st :: rest => max st.labelBound (freshLabel rest)

/-- `POLL` (R84). R84 calls Lp "a fresh label" and gives `POLL` no operand for Lp or for the variable t: that whoever writes
the program gives both, `l` and `t`, is a DESIGN CHOICE (log 21). Nothing here checks that `l` is fresh; `freshLabel` gives
one that is. -/
def pollStmts (l t : Nat) : List HostStmt :=
  [.label l, .rd t .status, .tst t 0x1, .bnz l]

/-- `RUN <command>` (R84), with the label and variable of its `POLL` as arguments (log 21). -/
def runStmts (l t : Nat) (i : Instr) : List HostStmt := cmdStmts i ++ pollStmts l t

/-- `LDSTATE a, b, c, d` (R84). -/
def ldStateStmts (a b c d : Word) : List HostStmt :=
  [.wr (.stateW 0) a, .wr (.stateW 1) b, .wr (.stateW 2) c, .wr (.stateW 3) d]

/-- `LDKEY a, b, c, d` (R84). -/
def ldKeyStmts (a b c d : Word) : List HostStmt :=
  [.wr (.keyW 0) a, .wr (.keyW 1) b, .wr (.keyW 2) c, .wr (.keyW 3) d]

/-- `RDSTATE t0, t1, t2, t3` (R84). -/
def rdStateStmts (t0 t1 t2 t3 : Nat) : List HostStmt :=
  [.rd t0 (.stateW 0), .rd t1 (.stateW 1), .rd t2 (.stateW 2), .rd t3 (.stateW 3)]

/-- `RDKEY t0, t1, t2, t3` (R84). -/
def rdKeyStmts (t0 t1 t2 t3 : Nat) : List HostStmt :=
  [.rd t0 (.keyW 0), .rd t1 (.keyW 1), .rd t2 (.keyW 2), .rd t3 (.keyW 3)]

/-- `CLROVR` (R84). -/
def clrOvrStmts : List HostStmt := [.wr .status 0x00000002]

/-- `CHKOK t` (R84): Z = 1 exactly when ERR = 0 and OVR = 0. -/
def chkOkStmts (t : Nat) : List HostStmt := [.rd t .status, .tst t 0xF2]

/-- The commands of R165 that do the work of `ENCRYPT n`: ADDKEY, then (KEYNEXT i, ROUND) for i = 0..n-1, only the last
ROUND carrying `nomix`. -/
def stepCommands (n : Nat) (nomix : Bool) : List Instr :=
  .addkey :: (List.range n).flatMap fun i =>
    [.keynext (BitVec.ofNat 4 i), .round (decide (i + 1 = n) && nomix)]

/-- Commands run one after another, each completed before the next (the host polls between them, R240). -/
def execAll (is : List Instr) (s : State) : Host.Outcome State Fault Refusal :=
  match is with
  | [] => .next s
  | i :: rest =>
    match exec i s with
    | .next s' => execAll rest s'
    | .fault f => .fault f
    | .refused r => .refused r

/-- Master-key recovery in commands (R173): KEYPREV 3, 2, 1, 0 on KEY = key[4]. -/
def masterKeyCommands : List Instr := [.keyprev 3, .keyprev 2, .keyprev 1, .keyprev 0]

/-- All 256 bytes. -/
def allBytes : List Byte := (List.range 256).map (BitVec.ofNat 8)

/-- A plaintext of the structured batch (R171): byte 0 is `v`, bytes 1..15 are the trial's fixed bytes. -/
def batchBlock (fixed : Vector Byte 15) (v : Byte) : Block := (#v[v] ++ fixed).cast (by decide)

/-- The batch's ciphertexts under the reduced cipher, 4 rounds, the last without MixColumns (R162, R172). -/
def batchCiphertexts (key : Block) (fixed : Vector Byte 15) : List Block :=
  allBytes.map fun v => encryptBlock (batchBlock fixed v) key 4 true

/-- Whether guess `g` passes at position `j`: the XOR over the batch of `Sinv[C.b[j] ⊕ g]` is 0 (R170, R172). -/
def zeroSum (cs : List Block) (j : Nat) (g : Byte) : Bool :=
  cs.foldl (fun acc c => acc ^^^ romSinv (byteAt c j ^^^ g)) 0 == 0

/-- `Cand_t[j]` (R172). -/
def candidates (cs : List Block) (j : Nat) : List Byte := allBytes.filter (zeroSum cs j)

/-- The fixed bytes `F_1, F_2, F_3` of the three trials of one attempt (R172 "per trial t in 1..3"). -/
abbrev Attempt := Vector (Vector Byte 15) 3

/-- The three batches of ciphertexts of an attempt (R172). -/
def attemptCiphertexts (oracleKey : Block) (fixed : Attempt) : Vector (List Block) 3 :=
  fixed.map (batchCiphertexts oracleKey)

/-- `result[j]` of R172: `Cand_1[j] ∩ Cand_2[j] ∩ Cand_3[j]`. -/
def survivors (trials : Vector (List Block) 3) (j : Nat) : List Byte :=
  (candidates trials[0] j).filter fun g =>
    decide (g ∈ candidates trials[1] j) && decide (g ∈ candidates trials[2] j)

/-- The byte of key[4] that one attempt finds at position `j`; none is "inconclusive for that byte" (R172,
60_exceptions.md R219). The validity marker is the option, never a zero byte (R172). -/
def recoveredByte (trials : Vector (List Block) 3) (j : Nat) : Option Byte :=
  match survivors trials j with
  | [g] => some g
  | _ => none

/-- The bytes of key[4] found so far, each with its validity marker. -/
abbrev KeySlots := Vector (Option Byte) 16

/-- Every position holds one value. -/
def KeySlots.conclusive (slots : KeySlots) : Bool := slots.all Option.isSome

/-- Fill the positions that are still inconclusive from an attempt's three trials; a byte found before is kept. -/
def fillSlots (trials : Vector (List Block) 3) (slots : KeySlots) : KeySlots :=
  Vector.ofFn fun j =>
    match slots[j] with
    | some g => some g
    | none => recoveredByte trials j.val

/-- Attempt after attempt while some byte is inconclusive: it is "retried with fresh random trials" (R172). The attempts'
fixed bytes come from the host's randomness, one attempt after the other; "no hard iteration bound is imposed", so the list
may have any length (U13, log 19). -/
def retryAttack (oracleKey : Block) (attempts : List Attempt) (slots : KeySlots) : KeySlots :=
  match attempts with
  | [] => slots
  | fixed :: rest =>
    if slots.conclusive then slots
    else retryAttack oracleKey rest (fillSlots (attemptCiphertexts oracleKey fixed) slots)

/-- The attack (R172), from no byte known. -/
def attackSlots (oracleKey : Block) (attempts : List Attempt) : KeySlots :=
  retryAttack oracleKey attempts (Vector.replicate 16 none)

/-- key[4] when every position holds one value; none is the attack's recoverable "inconclusive" outcome (R172,
60_exceptions.md R219). -/
def recoverRoundKey4 (oracleKey : Block) (attempts : List Attempt) : Option Block :=
  ((attackSlots oracleKey attempts).toList.mapM id).map fun bs => blockOfFn fun i => bs.getD i.val 0

/-- Master-key recovery (R173): walk key[4] back to key[0]. -/
def masterKey (key4 : Block) : Block :=
  keyPrev (keyPrev (keyPrev (keyPrev key4 3) 2) 1) 0

end Sys2Proof.Machine
end

