-- ==== Sys2Proof/Machine/Latency.lean ====
section
/-! DEFINITION. The latency parameter LAT(op, N) as a premise for timing claims (00_scope.md R5, 10_state.md R38,
70_reset_and_hazards.md R246). The step depends on no value of it. -/

namespace Sys2Proof.Machine

/-- The statement is a bus access that the block serves (20_memory.md R52-R56). A write that is dropped because BUSY = 1 is a
served access too: it is answered and sets OVR (60_exceptions.md R206). -/
def HostStmt.isServedAccess : HostStmt → Bool
  | .wr _ _ => true
  | .rd _ _ => true
  | .memRead _ addr width =>
    match classify addr width with
    | .served _ => true
    | _ => false
  | .memWrite addr width _ =>
    match classify addr width with
    | .served _ => true
    | _ => false
  | .label _ => false
  | .tst _ _ => false
  | .bnz _ => false
  | .bz _ => false
  | .halt => false

/-- How many host accesses are served in the next `n` steps while the command that is pending now stays pending: none while
BUSY = 0, and none after its completion, after a reset event or after a fault or refusal of the host. -/
def accessesWhilePending (n : Nat) (s : State) : Nat :=
  match n with
  | 0 => 0
  | k + 1 =>
    if s.busy then
      match s.nextTurn with
      | .host =>
        match step s with
        | .next t => (if s.hostStmt.any HostStmt.isServedAccess then 1 else 0) + accessesWhilePending k t
        | _ => 0
      | .engine => 0
      | .reset => 0
    else 0

/-- The value of LAT for the pending command: "only on the opcode and, for ENCRYPT, on the round count N" (R246). -/
def State.pendingLatency (s : State) : Nat :=
  Config.lat (opField s.pcmd) (if opField s.pcmd = 0xB then rndField s.pcmd else 0)

/-- A premise for timing claims, taken at the state that acceptance leaves: before the pending command is over the block serves
at most LAT(op, N) host accesses (R5, R38, R246). It holds of a state with BUSY = 0. The listed turns are steps enough, since
a pending command with no turn listed completes next (log 2). -/
def State.withinLatency (s : State) : Prop :=
  accessesWhilePending s.turns.length s ≤ s.pendingLatency

end Sys2Proof.Machine
end

