-- ==== Sys2Proof/Safety.lean ====
section
/-! DEFINITION. What claims are said in: the invariant of a run, the end of a run, what a completion leaves, and which states
look alike to the control logic. -/

namespace Sys2Proof.Machine

/-- Host variables are sorted by number with no repeats. -/
def varsSorted (vars : List (Nat × Word)) : Prop := vars.Pairwise fun a b => a.1 < b.1

/-- The invariant of every run. -/
structure State.Inv (s : State) : Prop where
  /-- "BUSY = 1 exactly when a command has been accepted and has not completed" (10_state.md R29): a pending PCMD is a
  legal command. -/
  pendingLegal : s.busy = true → ∃ i, decode s.pcmd = .ok i
  /-- Acceptance cleared ERR and nothing writes it while the command is pending (R35, 60_exceptions.md R206). -/
  pendingOk : s.busy = true → s.err = errOk
  /-- "The values 4..15 are never written" (R26). -/
  errLegal : s.err.toNat ≤ 3
  /-- The host's variables keep their canonical form. -/
  varsSorted : Machine.varsSorted s.host.vars

/-- The end of a run (70_reset_and_hazards.md R249): the host has halted and nothing is pending. -/
def State.Ended (s : State) : Prop := s.host.halted = true ∧ s.busy = false

/-- A completion that leaves `st`, `key` and `res` in STATE, KEY and RESULT (10_state.md R36): BUSY is 0, OVR and ERR are
unchanged, and so are the host and the turns. PCMD, WKEY and the round counter hold any value afterwards (U9), so nothing is
said of them. -/
structure CompletesWith (s t : State) (st key : Block) (res : Byte) : Prop where
  stateReg : t.stateReg = st
  keyReg : t.keyReg = key
  result : t.result = res
  busy : t.busy = false
  ovr : t.ovr = s.ovr
  err : t.err = s.err
  host : t.host = s.host
  turns : t.turns = s.turns

/-- Every register of the block that the host can read as it was. Of the host, the hidden registers and the schedule it says
nothing. -/
structure SameVisible (s t : State) : Prop where
  stateReg : t.stateReg = s.stateReg
  keyReg : t.keyReg = s.keyReg
  result : t.result = s.result
  busy : t.busy = s.busy
  ovr : t.ovr = s.ovr
  err : t.err = s.err

/-- Two states that differ at most in the data: STATE, KEY, RESULT and the hidden working key WKEY. -/
structure SameControl (s t : State) : Prop where
  busy : t.busy = s.busy
  ovr : t.ovr = s.ovr
  err : t.err = s.err
  pcmd : t.pcmd = s.pcmd
  wround : t.wround = s.wround
  host : t.host = s.host
  turns : t.turns = s.turns
  draws : t.draws = s.draws

/-- The registers whose value is data: RESULT, STATE_Wk and KEY_Wk. -/
def Reg.isData : Reg → Bool
  | .result => true
  | .stateW _ => true
  | .keyW _ => true
  | _ => false

/-- The statement reads a data register of the block into a host variable. -/
def HostStmt.readsData : HostStmt → Bool
  | .rd _ r => r.isData
  | .memRead _ addr width =>
    match classify addr width with
    | .served r => r.isData
    | _ => false
  | _ => false

/-- The host's next statement, on its turn, is a write of `v` to register `r` that the block serves. -/
def State.writesNow (s : State) (r : Reg) (v : Word) : Prop :=
  s.nextTurn = .host ∧
    (s.hostStmt = some (.wr r v) ∨
      ∃ addr, s.hostStmt = some (.memWrite addr .w32 v) ∧ classify addr .w32 = .served r)

end Sys2Proof.Machine
end

