-- ==== Sys2Proof/Certificates/Slice0/Obligations.lean ====
section
/-! DEFINITION. The statements about the model, from the numbered rules of spec/. Where a statement rests on a choice of the
model its docstring names the log entry. -/

open Sys2Proof Sys2Proof.Machine

/-! ### Encoding -/

/-- 30_encoding.md R77, R81: the decoder gives a well-formed command back from its word, every operand at every value. -/
def Obligations.DecodeOfEncodeIsTheCommand : Prop :=
  ∀ i : Instr, i.wf = true → decode (encode i) = .ok i

/-- 30_encoding.md R76, R77, R81 (D10: "no two words mean the same command"): an accepted word is the encoding of its command. -/
def Obligations.EncodeOfDecodeIsTheWord : Prop :=
  ∀ (v : Word) (i : Instr), decode v = .ok i → i.wf = true ∧ encode i = v

/-- 30_encoding.md R77: the value of Enc, that a word is legal exactly when a row of the opcode map accepts it, that the row is
the decoded command's, and that at most one row matches any word. -/
def Obligations.WordLegalIffOneOpcodeRow : Prop :=
  (∀ (op : BitVec 4) (imm8 : Byte) (rnd : BitVec 4) (nomix : Bool),
    (enc op imm8 rnd nomix).toNat = (if nomix then 2 ^ 20 else 0) + rnd.toNat * 2 ^ 16 + imm8.toNat * 2 ^ 8 + op.toNat) ∧
  (∀ v : Word, (∃ i, decode v = .ok i) ↔ ∃ row ∈ opTable, row.accepts v = true) ∧
  (∀ (v : Word) (i : Instr), decode v = .ok i → ∃ row ∈ opTable, row.accepts v = true ∧ row.mnemonic = i.mnemonic) ∧
  (∀ v : Word, ∀ a ∈ opTable, ∀ b ∈ opTable, a.fits v = true → b.fits v = true → a = b)

/-- 30_encoding.md R81: the checks of Decode in their order, each said over the bits of the word; an accepted word is the
command with that opcode whose encoding it is, so every operand is the word's field. -/
def Obligations.DecodeChecksInOrder : Prop :=
  ∀ v : Word,
    let op := (v &&& 0xF).toNat
    let rnd := ((v >>> 16) &&& 0xF).toNat
    (op ≥ 0xC → decode v = .error .op) ∧
    (op < 0xC → v &&& 0xFFE000F0 ≠ 0 → decode v = .error .rsvd) ∧
    (op < 0xC → v &&& 0xFFE000F0 = 0 → v &&& unusedMask (BitVec.ofNat 4 op) ≠ 0 → decode v = .error .rsvd) ∧
    (v &&& 0xFFE000F0 = 0 → v &&& unusedMask (BitVec.ofNat 4 op) = 0 → (op = 4 ∨ op = 9 ∨ op = 10) → rnd > 9 →
      decode v = .error .round) ∧
    (v &&& 0xFFE000F0 = 0 → v &&& unusedMask (BitVec.ofNat 4 op) = 0 → op = 11 → (rnd = 0 ∨ rnd > 10) →
      decode v = .error .round) ∧
    (op < 0xC → v &&& 0xFFE000F0 = 0 → v &&& unusedMask (BitVec.ofNat 4 op) = 0 →
      ((op = 4 ∨ op = 9 ∨ op = 10) → rnd ≤ 9) → (op = 11 → 1 ≤ rnd ∧ rnd ≤ 10) →
      ∃ i, decode v = .ok i ∧ i.opcode.toNat = op ∧ encode i = v)

/-- 30_encoding.md R82 (its examples) and R77 (its patterns): words written out from the spec decode to their commands. -/
def Obligations.WrittenOutWordsDecode : Prop :=
  decode 0b00000000000000000000000000000000 = .ok .nop ∧
  decode 0b00000000000000000101011100000001 = .ok (.xtime 0x57) ∧
  decode 0b00000000000000000101001100000010 = .ok (.sbox 0x53) ∧
  decode 0b00000000000000001110110100000011 = .ok (.isbox 0xed) ∧
  decode 0b00000000000010000000000000000100 = .ok (.rcon 8) ∧
  decode 0b00000000000000000000000000000101 = .ok .subshift ∧
  decode 0b00000000000000000000000000000110 = .ok .mixcol ∧
  decode 0b00000000000000000000000000000111 = .ok .addkey ∧
  decode 0b00000000000100000000000000001000 = .ok (.round true) ∧
  decode 0b00000000000000000000000000001001 = .ok (.keynext 0) ∧
  decode 0b00000000000010010000000000001010 = .ok (.keyprev 9) ∧
  decode 0b00000000000110100000000000001011 = .ok (.encrypt 10 true)

/-- 30_encoding.md R82: with every operand in range each of the twelve lines gives Enc of its opcode and fields, an absent
`nomix=` meaning 0; with an operand out of range it gives no word; and every word given decodes to the line's command. -/
def Obligations.AssemblerRefusesOutOfRange : Prop :=
  (Asm.nop.assemble = some (enc 0x0 0 0 false) ∧ Asm.subshift.assemble = some (enc 0x5 0 0 false) ∧
    Asm.mixcol.assemble = some (enc 0x6 0 0 false) ∧ Asm.addkey.assemble = some (enc 0x7 0 0 false)) ∧
  (∀ x, x ≤ 255 → (Asm.xtime x).assemble = some (enc 0x1 (BitVec.ofNat 8 x) 0 false) ∧
    (Asm.sbox x).assemble = some (enc 0x2 (BitVec.ofNat 8 x) 0 false) ∧
    (Asm.isbox x).assemble = some (enc 0x3 (BitVec.ofNat 8 x) 0 false)) ∧
  (∀ r, r ≤ 9 → (Asm.rcon r).assemble = some (enc 0x4 0 (BitVec.ofNat 4 r) false) ∧
    (Asm.keynext r).assemble = some (enc 0x9 0 (BitVec.ofNat 4 r) false) ∧
    (Asm.keyprev r).assemble = some (enc 0xA 0 (BitVec.ofNat 4 r) false)) ∧
  ((Asm.round none).assemble = some (enc 0x8 0 0 false) ∧ (Asm.round (some 0)).assemble = some (enc 0x8 0 0 false) ∧
    (Asm.round (some 1)).assemble = some (enc 0x8 0 0 true)) ∧
  (∀ n, 1 ≤ n → n ≤ 10 → (Asm.encrypt n none).assemble = some (enc 0xB 0 (BitVec.ofNat 4 n) false) ∧
    (Asm.encrypt n (some 0)).assemble = some (enc 0xB 0 (BitVec.ofNat 4 n) false) ∧
    (Asm.encrypt n (some 1)).assemble = some (enc 0xB 0 (BitVec.ofNat 4 n) true)) ∧
  (∀ x, 256 ≤ x → (Asm.xtime x).assemble = none ∧ (Asm.sbox x).assemble = none ∧ (Asm.isbox x).assemble = none) ∧
  (∀ r, 10 ≤ r → (Asm.rcon r).assemble = none ∧ (Asm.keynext r).assemble = none ∧ (Asm.keyprev r).assemble = none) ∧
  (∀ n m, n = 0 ∨ 11 ≤ n → (Asm.encrypt n m).assemble = none) ∧
  (∀ n m, 2 ≤ m → (Asm.round (some m)).assemble = none ∧ (Asm.encrypt n (some m)).assemble = none) ∧
  (∀ (a : Asm) (w : Word), a.assemble = some w → ∃ i, a.command = some i ∧ decode w = .ok i)

/-! ### Field arithmetic and tables -/

/-- 40_gf_tables.md R102 (a) to (e): xtime is linear and a bijection, and its value as a number. -/
def Obligations.XtimeIsLinearBijection : Prop :=
  (∀ a b : Byte, xtime (a ^^^ b) = xtime a ^^^ xtime b) ∧ xtime 0x00 = 0x00 ∧ Function.Bijective xtime ∧
  (∀ x : Byte, x.toNat < 0x80 → (xtime x).toNat = 2 * x.toNat) ∧
  (∀ x : Byte, x.toNat ≥ 0x80 → (xtime x).toNat = (2 * x.toNat - 256) ^^^ 0x1B) ∧
  xtime 0x80 = 0x1B ∧ xtime 0x8D = 0x01

/-- 40_gf_tables.md R106: the two S-boxes are one another's inverses. -/
def Obligations.SboxesAreInverse : Prop :=
  ∀ x : Byte, romSinv (romS x) = x ∧ romS (romSinv x) = x

/-- 40_gf_tables.md R104 (general knowledge of the spec, log 14): the S-box is the affine map of the field inverse; it has no
fixed point and no opposite fixed point. -/
def Obligations.SboxIsAffineOfFieldInverse : Prop :=
  gfInv 0 = 0 ∧ (∀ x : Byte, x ≠ 0 → gfMul x (gfInv x) = 1) ∧ (∀ x : Byte, romS x = sboxAffine (gfInv x)) ∧
  (∀ x : Byte, romS x ≠ x ∧ romS x ≠ x ^^^ 0xFF)

/-! ### The round function -/

/-- 41_round.md R120: the element of row r and column c after the step came from column (c + r) mod 4, and the byte
permutation the rule tabulates. -/
def Obligations.SubShiftTakesFromRotatedColumn : Prop :=
  ∀ s : Block,
    (∀ r c : Fin 4, matrixAt (subShift s) r c = romS (matrixAt s r ((c.val + r.val) % 4))) ∧
    (∀ i : Fin 16, byteAt (subShift s) i =
      romS (byteAt s ((#v[0, 5, 10, 15, 4, 9, 14, 3, 8, 13, 2, 7, 12, 1, 6, 11] : Vector Nat 16)[i])))

/-- 41_round.md R121: substitution and rotation commute, SubShift is a bijection, row 0 keeps its places, and the all-zero
block gives all 0x63. -/
def Obligations.SubShiftCommutesAndIsBijective : Prop :=
  (∀ s : Block, subShift s = shiftRows (subBytes s) ∧ subShift s = subBytes (shiftRows s)) ∧
  Function.Bijective subShift ∧
  (∀ (s : Block) (c : Fin 4), byteAt (subShift s) (4 * c.val) = romS (byteAt s (4 * c.val))) ∧
  subShift (Vector.replicate 16 0x00) = Vector.replicate 16 0x63

/-- 41_round.md R122: each output byte of each column, with t the XOR of the column. -/
def Obligations.MixColumnsColumnFormula : Prop :=
  ∀ (s : Block) (c i : Fin 4),
    let a : Fin 4 → Byte := fun j => byteAt s (4 * c.val + j.val)
    let t := a 0 ^^^ a 1 ^^^ a 2 ^^^ a 3
    byteAt (mixColumns s) (4 * c.val + i.val) = a i ^^^ t ^^^ xtime (a i ^^^ a (i + 1))

/-- 41_round.md R123 (a), (b), (c): the matrix form, linearity over XOR, and that columns of equal bytes are unchanged. -/
def Obligations.MixColumnsIsLinear : Prop :=
  (∀ (s : Block) (c : Fin 4),
    let a : Fin 4 → Byte := fun j => byteAt s (4 * c.val + j.val)
    let two := xtime
    let three : Byte → Byte := fun b => xtime b ^^^ b
    byteAt (mixColumns s) (4 * c.val) = two (a 0) ^^^ three (a 1) ^^^ a 2 ^^^ a 3 ∧
    byteAt (mixColumns s) (4 * c.val + 1) = a 0 ^^^ two (a 1) ^^^ three (a 2) ^^^ a 3 ∧
    byteAt (mixColumns s) (4 * c.val + 2) = a 0 ^^^ a 1 ^^^ two (a 2) ^^^ three (a 3) ∧
    byteAt (mixColumns s) (4 * c.val + 3) = three (a 0) ^^^ a 1 ^^^ a 2 ^^^ two (a 3)) ∧
  (∀ s s' : Block, mixColumns (addRoundKey s s') = addRoundKey (mixColumns s) (mixColumns s')) ∧
  (∀ (s : Block) (c : Fin 4), (∀ j : Fin 4, byteAt s (4 * c.val + j.val) = byteAt s (4 * c.val)) →
    ∀ j : Fin 4, byteAt (mixColumns s) (4 * c.val + j.val) = byteAt s (4 * c.val + j.val))

/-- 41_round.md R123 (d): MixColumns is a bijection, with the inverse matrix the rule names (general knowledge of the spec). -/
def Obligations.MixColumnsHasInverse : Prop :=
  ∀ s : Block, invMixColumns (mixColumns s) = s ∧ mixColumns (invMixColumns s) = s

/-- 41_round.md R124: AddRoundKey byte by byte, and that it is its own inverse. -/
def Obligations.AddRoundKeyXorsAndUndoes : Prop :=
  ∀ s k : Block, (∀ i : Fin 16, byteAt (addRoundKey s k) i = byteAt s i ^^^ byteAt k i) ∧
    addRoundKey (addRoundKey s k) k = s

/-- 41_round.md R126: lanes. An output byte of AddRoundKey or SubShift depends on its one input byte, an output column of
MixColumns on its input column alone. -/
def Obligations.RoundStepsKeepLanes : Prop :=
  (∀ (s s' k k' : Block) (i : Fin 16), byteAt s i = byteAt s' i → byteAt k i = byteAt k' i →
    byteAt (addRoundKey s k) i = byteAt (addRoundKey s' k') i) ∧
  (∀ (s s' : Block) (r c : Fin 4), matrixAt s r ((c.val + r.val) % 4) = matrixAt s' r ((c.val + r.val) % 4) →
    matrixAt (subShift s) r c = matrixAt (subShift s') r c) ∧
  (∀ (s s' : Block) (c : Fin 4), (∀ r : Fin 4, matrixAt s r c = matrixAt s' r c) →
    ∀ r : Fin 4, matrixAt (mixColumns s) r c = matrixAt (mixColumns s') r c)

/-! ### The key schedule -/

/-- 42_key_schedule.md R140, R141, R142: RotWord, SubWord and the mixing term on the bytes of a word. -/
def Obligations.KeyMixRotatesSubstitutesAddsConstant : Prop :=
  ∀ (a0 a1 a2 a3 : Byte) (r : Fin 10),
    rotWord (wordOfBytes a0 a1 a2 a3) = wordOfBytes a1 a2 a3 a0 ∧
    subWord (wordOfBytes a0 a1 a2 a3) = wordOfBytes (romS a0) (romS a1) (romS a2) (romS a3) ∧
    rconWord r = wordOfBytes (romRcon r) 0 0 0 ∧
    keyMix (wordOfBytes a0 a1 a2 a3) r = wordOfBytes (romS a1 ^^^ romRcon r) (romS a2) (romS a3) (romS a0)

/-- 42_key_schedule.md R143: each new word of KeyNext from the already updated one before it, T on the old w3. -/
def Obligations.KeyNextUpdatesWordsInOrder : Prop :=
  ∀ (k : Block) (r : Fin 10), let k' := keyNext k r
    blockWord k' 0 = blockWord k 0 ^^^ subWord (rotWord (blockWord k 3)) ^^^ rconWord r ∧
    blockWord k' 1 = blockWord k 1 ^^^ blockWord k' 0 ∧
    blockWord k' 2 = blockWord k 2 ^^^ blockWord k' 1 ∧
    blockWord k' 3 = blockWord k 3 ^^^ blockWord k' 2

/-- 42_key_schedule.md R144: words 3, 2, 1 of KeyPrev from their not yet reverted neighbours, word 0 from the reverted w3. -/
def Obligations.KeyPrevRevertsWordsTopDown : Prop :=
  ∀ (k : Block) (r : Fin 10), let k' := keyPrev k r
    blockWord k' 3 = blockWord k 3 ^^^ blockWord k 2 ∧
    blockWord k' 2 = blockWord k 2 ^^^ blockWord k 1 ∧
    blockWord k' 1 = blockWord k 1 ^^^ blockWord k 0 ∧
    blockWord k' 0 = blockWord k 0 ^^^ subWord (rotWord (blockWord k' 3)) ^^^ rconWord r

/-- 42_key_schedule.md R145: each direction undoes the other, so each KeyNext(·, r) is a bijection on blocks. -/
def Obligations.KeyScheduleRoundTrips : Prop :=
  (∀ (k : Block) (r : Fin 10), keyPrev (keyNext k r) r = k ∧ keyNext (keyPrev k r) r = k) ∧
  ∀ r : Fin 10, Function.Bijective fun k => keyNext k r

/-- 42_key_schedule.md R147 (b): two indexes differ exactly in the first byte of every word, by the XOR of their constants. -/
def Obligations.KeyNextIndexShowsInFirstBytes : Prop :=
  ∀ (k : Block) (r r' : Fin 10) (i : Fin 16),
    byteAt (keyNext k r) i ^^^ byteAt (keyNext k r') i =
      if i.val % 4 = 0 then romRcon r ^^^ romRcon r' else 0

/-- 42_key_schedule.md R146 and 43_block_driver.md R173: KEYPREV 3, 2, 1, 0 from key[4] reach the master key, as functions
and as commands run from any state that holds key[4]. -/
def Obligations.FourKeyprevsRecoverMasterKey : Prop :=
  (∀ k : Block, masterKey (keyChain k 4) = k) ∧
  ∀ (k : Block) (s : State), s.keyReg = keyChain k 4 →
    ∃ t, execAll masterKeyCommands s = .next t ∧ t.keyReg = k ∧ t.stateReg = s.stateReg ∧ t.result = s.result

/-! ### The driver -/

/-- 43_block_driver.md R161: the known-answer vector, which needs NOMIX = 1 at N = 10; with NOMIX = 0 the other ciphertext. -/
def Obligations.KnownAnswerNeedsNomix : Prop :=
  let p : Block := #v[0x32, 0x43, 0xf6, 0xa8, 0x88, 0x5a, 0x30, 0x8d, 0x31, 0x31, 0x98, 0xa2, 0xe0, 0x37, 0x07, 0x34]
  let k : Block := #v[0x2b, 0x7e, 0x15, 0x16, 0x28, 0xae, 0xd2, 0xa6, 0xab, 0xf7, 0x15, 0x88, 0x09, 0xcf, 0x4f, 0x3c]
  encryptBlock p k 10 true =
    #v[0x39, 0x25, 0x84, 0x1d, 0x02, 0xdc, 0x09, 0xfb, 0xdc, 0x11, 0x85, 0x97, 0x19, 0x6a, 0x0b, 0x32] ∧
  encryptBlock p k 10 false =
    #v[0x82, 0xad, 0x1f, 0xb5, 0x4c, 0x47, 0x12, 0x35, 0x3f, 0x81, 0xf7, 0x96, 0x7b, 0x43, 0x03, 0x71]

/-- 43_block_driver.md R163: one round, with MixColumns inserted before the last AddRoundKey when nomix = 0. -/
def Obligations.OneRoundEncryption : Prop :=
  ∀ p k : Block,
    encryptBlock p k 1 true = addRoundKey (subShift (addRoundKey p k)) (keyNext k 0) ∧
    encryptBlock p k 1 false = addRoundKey (mixColumns (subShift (addRoundKey p k))) (keyNext k 0)

/-- 43_block_driver.md R160: one more round. With n + 1 rounds, the first n have MixColumns on and round n + 1 uses
key[n + 1]. -/
def Obligations.EncryptionAddsARound : Prop :=
  ∀ (p k : Block) (n : Nat) (nomix : Bool), 1 ≤ n → n ≤ 9 →
    encryptBlock p k (n + 1) nomix = roundFn (encryptBlock p k n false) (keyChain k (n + 1)) nomix

/-- 43_block_driver.md R160 with 41_round.md R121, R123, R124: under every key, round count and flag, encryption is a
bijection on blocks (so a ciphertext determines its plaintext). -/
def Obligations.EncryptionIsBijective : Prop :=
  ∀ (k : Block) (n : Nat) (nomix : Bool), 1 ≤ n → n ≤ 10 → Function.Bijective fun p => encryptBlock p k n nomix

/-- 43_block_driver.md R165: ADDKEY, then the pairs KEYNEXT i-1 and ROUND, leave in STATE what ENCRYPT leaves there; they
leave key[N] in KEY, while ENCRYPT leaves KEY as it was. -/
def Obligations.StepCommandsEqualEncrypt : Prop :=
  ∀ (n : Nat) (nomix : Bool) (s : State), 1 ≤ n → n ≤ 10 →
    ∃ t u, execAll (stepCommands n nomix) s = .next t ∧ exec (.encrypt (BitVec.ofNat 4 n) nomix) s = .next u ∧
      t.stateReg = encryptBlock s.stateReg s.keyReg n nomix ∧ u.stateReg = t.stateReg ∧
      t.keyReg = keyChain s.keyReg n ∧ u.keyReg = s.keyReg

/-! ### What each command does at completion, and its frame -/

/-- 44_control.md R180, 10_state.md R36: NOP completes and writes nothing but BUSY <- 0. -/
def Obligations.NopCompletes : Prop :=
  ∀ s : State, ∃ t, exec .nop s = .next t ∧ CompletesWith s t s.stateReg s.keyReg s.result

/-- 40_gf_tables.md R108-R111, 10_state.md R36: XTIME, SBOX, ISBOX and RCON complete, write RESULT and BUSY <- 0 and nothing
else the host can see. -/
def Obligations.ByteCommandsWriteResult : Prop :=
  ∀ s : State,
    (∀ x : Byte, ∃ t, exec (.xtime x) s = .next t ∧ CompletesWith s t s.stateReg s.keyReg (xtime x)) ∧
    (∀ x : Byte, ∃ t, exec (.sbox x) s = .next t ∧ CompletesWith s t s.stateReg s.keyReg (romS x)) ∧
    (∀ y : Byte, ∃ t, exec (.isbox y) s = .next t ∧ CompletesWith s t s.stateReg s.keyReg (romSinv y)) ∧
    (∀ r : Fin 10, ∃ t, exec (.rcon (BitVec.ofNat 4 r.val)) s = .next t ∧
      CompletesWith s t s.stateReg s.keyReg (romRcon r))

/-- 41_round.md R127-R130, 10_state.md R36: SUBSHIFT, MIXCOL, ADDKEY and ROUND complete, write STATE and BUSY <- 0 and
nothing else the host can see. -/
def Obligations.RoundCommandsWriteState : Prop :=
  ∀ s : State,
    (∃ t, exec .subshift s = .next t ∧ CompletesWith s t (subShift s.stateReg) s.keyReg s.result) ∧
    (∃ t, exec .mixcol s = .next t ∧ CompletesWith s t (mixColumns s.stateReg) s.keyReg s.result) ∧
    (∃ t, exec .addkey s = .next t ∧ CompletesWith s t (addRoundKey s.stateReg s.keyReg) s.keyReg s.result) ∧
    (∀ nomix, ∃ t, exec (.round nomix) s = .next t ∧
      CompletesWith s t (roundFn s.stateReg s.keyReg nomix) s.keyReg s.result)

/-- 42_key_schedule.md R148, R149, 10_state.md R36: KEYNEXT and KEYPREV complete at every legal index, write KEY and
BUSY <- 0 and nothing else the host can see. -/
def Obligations.KeyCommandsWriteKey : Prop :=
  ∀ (s : State) (r : Fin 10),
    (∃ t, exec (.keynext (BitVec.ofNat 4 r.val)) s = .next t ∧
      CompletesWith s t s.stateReg (keyNext s.keyReg r) s.result) ∧
    (∃ t, exec (.keyprev (BitVec.ofNat 4 r.val)) s = .next t ∧
      CompletesWith s t s.stateReg (keyPrev s.keyReg r) s.result)

/-- 43_block_driver.md R164, 10_state.md R36: ENCRYPT completes at every legal round count, writes STATE and BUSY <- 0 and
leaves KEY and RESULT as they were. -/
def Obligations.EncryptWritesStateKeepsKey : Prop :=
  ∀ (s : State) (n : Nat) (nomix : Bool), 1 ≤ n → n ≤ 10 →
    ∃ t, exec (.encrypt (BitVec.ofNat 4 n) nomix) s = .next t ∧
      CompletesWith s t (encryptBlock s.stateReg s.keyReg n nomix) s.keyReg s.result

/-- The model's choice, log 11: a command term that no word decodes to (30_encoding.md R73) is refused by name, and every
other completes. -/
def Obligations.OnlyIllFormedTermsAreRefused : Prop :=
  ∀ (i : Instr) (s : State), (i.wf = false ↔ exec i s = .refused .illFormedCommand) ∧
    (i.wf = true ↔ ∃ t, exec i s = .next t)

/-! ### The command lifecycle and the step -/

/-- 10_state.md R36, R37: when the engine moves and PCMD decodes to a command, the step is that command's meaning at that
state, with the engine's turn taken off the list (the list is the model's, log 2). -/
def Obligations.StepRunsThePendingCommand : Prop :=
  ∀ (s : State) (i : Instr), s.nextTurn = .engine → s.busy = true → decode s.pcmd = .ok i →
    step s = exec i { s with turns := s.turns.tail }

/-- Log 12, with 10_state.md R35, R36: from any state, presenting a well-formed command's word makes the very next step that
command, run on the data registers as they are. -/
def Obligations.PresentedWordRunsNext : Prop :=
  ∀ (s : State) (i : Instr), i.wf = true →
    step (s.withFetchWord 32 (encode i).toNat) = exec i { s with pcmd := encode i, err := 0, busy := true }

/-- 10_state.md R35, R36, 20_memory.md R59: a CMD write of a legal word by an idle block's host, then the engine's turn, runs
the command on the operands the registers held, with ERR cleared (that each move is one listed turn: log 2, 8). -/
def Obligations.AcceptedCommandThenRuns : Prop :=
  ∀ (s : State) (v : Word) (i : Instr) (rest : List Turn),
    s.busy = false → s.turns = .host :: .engine :: rest → s.hostStmt = some (.wr .cmd v) → decode v = .ok i →
    Sys2Proof.core.run 2 s =
      exec i { s with
        pcmd := v, err := 0, busy := true, turns := rest, host := { s.host with pc := s.host.pc + 1 } }

/-- 60_exceptions.md R220, 10_state.md R36: from any state of the invariant with a command pending, the engine's step
completes: it gives a next state with BUSY = 0 and OVR and ERR as they were (who moves next: log 2). -/
def Obligations.EngineNeverFailsOnAcceptedCommand : Prop :=
  ∀ s : State, s.Inv → s.busy = true → s.nextTurn = .engine →
    ∃ t, step s = .next t ∧ t.busy = false ∧ t.ovr = s.ovr ∧ t.err = s.err

/-- 10_state.md R35 ("the values STATE and KEY hold at completion are those they held at acceptance"): a step that leaves the
command pending leaves STATE, KEY, RESULT and PCMD as they were. -/
def Obligations.PendingOperandsAreStable : Prop :=
  ∀ s t : State, s.busy = true → step s = .next t → t.busy = true →
    t.stateReg = s.stateReg ∧ t.keyReg = s.keyReg ∧ t.result = s.result ∧ t.pcmd = s.pcmd

/-- 10_state.md R38, 70_reset_and_hazards.md R240: a pending command of a state of the invariant is over within one step more
than the turns listed; or before that the host has stopped the run, with a bus error or an undefined label (log 6, 10). R38
gives no bound: the bound in listed turns is the model's choice (log 2). -/
def Obligations.PendingCommandCompletesInTime : Prop :=
  ∀ s : State, s.Inv → s.busy = true →
    ∃ n, n ≤ s.turns.length + 1 ∧
      ((∃ t, Sys2Proof.core.run n s = .next t ∧ t.busy = false) ∨
       (∃ addr, Sys2Proof.core.run n s = .fault (.busError addr)) ∨
       (∃ l, Sys2Proof.core.run n s = .refused (.undefinedLabel l)))

/-! ### The register window -/

/-- 60_exceptions.md R208: the outcome of a CMD write, dropped first, then one of the three codes, then acceptance; and the
rule's examples. -/
def Obligations.CmdWriteHasOneOutcome : Prop :=
  (∀ (v : Word) (s : State),
    (s.busy = true → hostWrite .cmd v s = { s with ovr := true }) ∧
    (s.busy = false → decode v = .error .op → hostWrite .cmd v s = { s with err := 1 }) ∧
    (s.busy = false → decode v = .error .rsvd → hostWrite .cmd v s = { s with err := 2 }) ∧
    (s.busy = false → decode v = .error .round → hostWrite .cmd v s = { s with err := 3 }) ∧
    (s.busy = false → ∀ i, decode v = .ok i → hostWrite .cmd v s = { s with pcmd := v, err := 0, busy := true })) ∧
  decode 0x0000000C = .error .op ∧ decode 0x0010000C = .error .op ∧ decode 0x000A0009 = .error .round ∧
  decode 0x001A0009 = .error .rsvd ∧ decode 0x0000000B = .error .round

/-- 60_exceptions.md R201: a rejection sets the code and changes nothing else, BUSY stays 0, and no engine step
follows: an engine turn then does nothing (log 2). -/
def Obligations.RejectionChangesOnlyErr : Prop :=
  ∀ (v : Word) (s : State) (why : Reject), s.busy = false → decode v = .error why →
    hostWrite .cmd v s = { s with err := errCode why } ∧ errCode why ≠ errOk ∧
    engineTurn (hostWrite .cmd v s) = .next (hostWrite .cmd v s)

/-- 60_exceptions.md R206: while BUSY = 1, writes to CMD, STATE_Wk and KEY_Wk set OVR and do nothing else; writes to the other
registers are never dropped and never set OVR. -/
def Obligations.BusyWritesAreDropped : Prop :=
  ∀ (s : State) (v : Word), s.busy = true →
    hostWrite .cmd v s = { s with ovr := true } ∧
    (∀ k, hostWrite (.stateW k) v s = { s with ovr := true }) ∧
    (∀ k, hostWrite (.keyW k) v s = { s with ovr := true }) ∧
    hostWrite .status v s = (if v.getLsbD 1 then { s with ovr := false } else s) ∧
    hostWrite .result v s = s ∧ hostWrite .id v s = s ∧ (∀ k, hostWrite (.reserved k) v s = s)

/-- 44_control.md R182: a write to STATUS clears OVR exactly when bit 1 is 1, and changes nothing else, busy or not. -/
def Obligations.StatusWriteClearsOverrun : Prop :=
  ∀ (s : State) (v : Word),
    hostWrite .status v s = (if v.getLsbD 1 then { s with ovr := false } else s) ∧
    hostWrite .status 0x00000000 s = s ∧ hostWrite .status 0xFFFFFFFF s = { s with ovr := false } ∧
    clrOvrStmts = [.wr .status 0x00000002] ∧ hostWrite .status 0x00000002 s = { s with ovr := false }

/-- 20_memory.md R58: what a served read answers, register by register; a data register read while BUSY = 1 gives the next
draw of ANY_32, of which nothing is known (log 5). -/
def Obligations.ServedReadsAnswer : Prop :=
  ∀ (s : State) (t : Nat) (r : Reg), ∃ v, busRead t (regAddr r) .w32 s = .next (s.takeAnswer t v) ∧
    (r = .cmd → v = 0x00000000) ∧
    (r = .status → v = (s.err.setWidth 32 <<< 4) ||| ((BitVec.ofBool s.ovr).setWidth 32 <<< 1) |||
      (BitVec.ofBool s.busy).setWidth 32) ∧
    (r = .id → v = 0x41455331) ∧ (∀ k, r = .reserved k → v = 0x00000000) ∧
    (s.busy = false → r = .result → v = s.result.setWidth 32) ∧
    (s.busy = false → ∀ k : Fin 4, r = .stateW k → v = byteAt s.stateReg (4 * k.val) ++ byteAt s.stateReg (4 * k.val + 1) ++
      byteAt s.stateReg (4 * k.val + 2) ++ byteAt s.stateReg (4 * k.val + 3)) ∧
    (s.busy = false → ∀ k : Fin 4, r = .keyW k → v = byteAt s.keyReg (4 * k.val) ++ byteAt s.keyReg (4 * k.val + 1) ++
      byteAt s.keyReg (4 * k.val + 2) ++ byteAt s.keyReg (4 * k.val + 3)) ∧
    (s.busy = true → r.isData = true → v = Config.anyWord s.draws)

/-- 10_state.md R25: STATUS reads BUSY in bit 0, OVR in bit 1, ERR in bits 7:4, and 0 everywhere else. -/
def Obligations.StatusFieldsAndReservedBits : Prop :=
  ∀ s : State,
    (statusWord s).getLsbD 0 = s.busy ∧ (statusWord s).getLsbD 1 = s.ovr ∧
    (statusWord s).extractLsb' 2 2 = 0 ∧ (statusWord s).extractLsb' 4 4 = s.err ∧
    (statusWord s).extractLsb' 8 24 = 0

/-- 20_memory.md R53, R59, 10_state.md R39 and 30_encoding.md R83: on the host's turn a `WR REG, v`, or a served MemWrite, is a
step that does HostWrite on the block, the host one statement on (that each statement is one turn: log 2, 8). With BUSY = 0 a
write of STATE_Wk or KEY_Wk is read back, puts its bytes big-endian in place, keeps the other twelve bytes, and changes
nothing else (the two registers do not alias). -/
def Obligations.DataRegisterWriteReadsBack : Prop :=
  (∀ (s : State) (r : Reg) (v : Word), s.writesNow r v →
    step s = .next (hostWrite r v
      { s with turns := s.turns.tail, host := { s.host with pc := s.host.pc + 1 } })) ∧
  ∀ (s : State) (k : Fin 4) (v : Word), s.busy = false →
    (∃ b, hostWrite (.stateW k) v s = { s with stateReg := b } ∧ hostRead (.stateW k) (hostWrite (.stateW k) v s) = v ∧
      (∀ j : Fin 4, byteAt b (4 * k.val + j.val) = v.extractLsb' (24 - 8 * j.val) 8) ∧
      (∀ i : Fin 16, i.val / 4 ≠ k.val → byteAt b i = byteAt s.stateReg i)) ∧
    (∃ b, hostWrite (.keyW k) v s = { s with keyReg := b } ∧ hostRead (.keyW k) (hostWrite (.keyW k) v s) = v ∧
      (∀ j : Fin 4, byteAt b (4 * k.val + j.val) = v.extractLsb' (24 - 8 * j.val) 8) ∧
      (∀ i : Fin 16, i.val / 4 ≠ k.val → byteAt b i = byteAt s.keyReg i))

/-- 20_memory.md R52, R54, R55, R56: an access outside the window is not the block's; inside it, an aligned 32-bit access is
served at the register of its offset, and every other one is malformed. An access is sorted by its address alone first, so
a wide one that begins below BASE is outside even where it reaches into the window: that sorting is DEDUCED (log 7). -/
def Obligations.WindowServesAlignedWordsOnly : Prop :=
  Config.base % 64 = 0 ∧
  ∀ (addr : Nat) (width : Width),
    ((addr < Config.base ∨ Config.base + 0x3F < addr) → classify addr width = .outside) ∧
    (Config.base ≤ addr → addr ≤ Config.base + 0x3F → width = .w32 → (addr - Config.base) % 4 = 0 →
      ∃ r, classify addr width = .served r ∧ addr = Config.base + regOffset r) ∧
    (Config.base ≤ addr → addr ≤ Config.base + 0x3F → ¬ (width = .w32 ∧ (addr - Config.base) % 4 = 0) →
      classify addr width = .malformed)

/-- 60_exceptions.md R207, R220 (that the fault ends the run is the model's choice, log 6): a step faults exactly when it is
the host's turn and its statement is an access that is malformed in the window, and the fault is that access's bus error. -/
def Obligations.BusErrorIsTheOnlyFault : Prop :=
  ∀ (s : State) (f : Fault), step s = .fault f ↔
    s.nextTurn = .host ∧ ∃ addr width, classify addr width = .malformed ∧ f = .busError addr ∧
      ((∃ t, s.hostStmt = some (.memRead t addr width)) ∨ ∃ v, s.hostStmt = some (.memWrite addr width v))

/-- 20_memory.md R58, R61: on the host's turn a `RD t, REG`, or a served MemRead, answers into its variable; every register of
the block, the hidden ones too, and the rest of the host but its position are as before; and a second read of a register that
is not drawn answers the same (the host's machine: log 8; the turn: log 2). -/
def Obligations.ReadsChangeNoRegister : Prop :=
  ∀ (s : State) (t u : Nat) (r : Reg), s.nextTurn = .host →
    (s.hostStmt = some (.rd t r) ∨
      ∃ addr, s.hostStmt = some (.memRead t addr .w32) ∧ classify addr .w32 = .served r) →
    ∃ s', step s = .next s' ∧ SameVisible s s' ∧
      s'.pcmd = s.pcmd ∧ s'.wkey = s.wkey ∧ s'.wround = s.wround ∧ s'.turns = s.turns.tail ∧
      s'.host.program = s.host.program ∧ s'.host.pc = s.host.pc + 1 ∧ s'.host.z = s.host.z ∧
      s'.host.halted = s.host.halted ∧
      readVar s'.host.vars t = hostRead r s ∧ (u ≠ t → readVar s'.host.vars u = readVar s.host.vars u) ∧
      ((r.isData = true → s.busy = false) → hostRead r s' = hostRead r s)

/-! ### Who writes what -/

/-- 10_state.md R32, 60_exceptions.md R206: OVR is set only by a dropped write, and cleared only by a host write of 1 to its
bit or by reset. -/
def Obligations.OverrunOnlyByDropClearReset : Prop :=
  ∀ s t : State, step s = .next t →
    (s.ovr = false → t.ovr = true → s.busy = true ∧
      ∃ r v, s.writesNow r v ∧ (r = .cmd ∨ (∃ k, r = .stateW k) ∨ ∃ k, r = .keyW k)) ∧
    (s.ovr = true → t.ovr = false → s.nextTurn = .reset ∨ ∃ v, s.writesNow .status v ∧ v.getLsbD 1 = true)

/-- 10_state.md R32, 60_exceptions.md R205, 70_reset_and_hazards.md R230: ERR changes only by a CMD write that is not dropped
or by reset; BUSY rises only by an accepted CMD write and falls only by completion or reset. -/
def Obligations.ErrAndBusyOnlyByLifecycle : Prop :=
  ∀ s t : State, step s = .next t →
    (t.err ≠ s.err → s.nextTurn = .reset ∨ (s.busy = false ∧ ∃ v, s.writesNow .cmd v)) ∧
    (s.busy = false → t.busy = true → ∃ v i, s.writesNow .cmd v ∧ decode v = .ok i ∧ t.pcmd = v ∧ t.err = 0) ∧
    (s.busy = true → t.busy = false → s.nextTurn = .reset ∨ s.nextTurn = .engine)

/-- 10_state.md R21, R23, R24: STATE is written by host writes, SUBSHIFT, MIXCOL, ADDKEY, ROUND and ENCRYPT, KEY by host
writes, KEYNEXT and KEYPREV, RESULT by XTIME, SBOX, ISBOX and RCON; and each by reset. Nothing else writes them. -/
def Obligations.DataRegistersOnlyByTheirWriters : Prop :=
  ∀ s t : State, step s = .next t → s.nextTurn ≠ .reset →
    (t.stateReg ≠ s.stateReg → (s.busy = false ∧ ∃ k v, s.writesNow (.stateW k) v) ∨
      ∃ i, s.nextTurn = .engine ∧ s.busy = true ∧ decode s.pcmd = .ok i ∧
        (i = .subshift ∨ i = .mixcol ∨ i = .addkey ∨ (∃ m, i = .round m) ∨ ∃ n m, i = .encrypt n m)) ∧
    (t.keyReg ≠ s.keyReg → (s.busy = false ∧ ∃ k v, s.writesNow (.keyW k) v) ∨
      ∃ i, s.nextTurn = .engine ∧ s.busy = true ∧ decode s.pcmd = .ok i ∧
        ((∃ r, i = .keynext r) ∨ ∃ r, i = .keyprev r)) ∧
    (t.result ≠ s.result → ∃ i, s.nextTurn = .engine ∧ s.busy = true ∧ decode s.pcmd = .ok i ∧
        ((∃ x, i = .xtime x) ∨ (∃ x, i = .sbox x) ∨ (∃ y, i = .isbox y) ∨ ∃ r, i = .rcon r))

/-- 10_state.md R32 ("No command sets a flag from its data"), 70_reset_and_hazards.md R246: of two states that differ only in
STATE, KEY, RESULT and the hidden working key WKEY, a step that is not a read of a data register makes the same move: both go on,
to states that again differ only there, or both stop for the same reason. -/
def Obligations.ControlDoesNotDependOnData : Prop :=
  ∀ s s' : State, SameControl s s' →
    (s.nextTurn = .host → ∀ st, s.hostStmt = some st → st.readsData = false) →
    (∃ t t', step s = .next t ∧ step s' = .next t' ∧ SameControl t t') ∨
    (∃ f, step s = .fault f ∧ step s' = .fault f) ∨ (∃ r, step s = .refused r ∧ step s' = .refused r)

/-! ### Reset and the invariant -/

/-- 70_reset_and_hazards.md R230: the reset event sets every register the host can see to its reset value, whatever was
pending. PCMD, WKEY and the round counter are unspecified after it: nothing is said of them. That it leaves the host alone is
DEDUCED (log 13); that it takes one listed turn, and that an engine turn of the idle block after it is a step that changes
nothing visible, is the model's choice (log 2). -/
def Obligations.ResetEventZeroesTheBlock : Prop :=
  ∀ s : State, s.nextTurn = .reset → ∃ t, step s = .next t ∧
    (∀ i : Fin 16, byteAt t.stateReg i = 0x00 ∧ byteAt t.keyReg i = 0x00) ∧
    t.result = 0x00 ∧ t.busy = false ∧ t.ovr = false ∧ t.err = 0 ∧ t.host = s.host ∧ t.turns = s.turns.tail ∧
    ∀ u : State, u = { t with turns := [.engine] } → ∃ w, step u = .next w ∧ SameVisible u w

/-- 70_reset_and_hazards.md R231: what the host reads after reset, at every register. -/
def Obligations.ResetReadsAsZeroButId : Prop :=
  hostRead .cmd State.reset = 0x00000000 ∧ hostRead .status State.reset = 0x00000000 ∧
  hostRead .result State.reset = 0x00000000 ∧ hostRead .id State.reset = 0x41455331 ∧
  (∀ k, hostRead (.stateW k) State.reset = 0x00000000) ∧ (∀ k, hostRead (.keyW k) State.reset = 0x00000000) ∧
  ∀ k, hostRead (.reserved k) State.reset = 0x00000000

/-- The state after reset meets the invariant (10_state.md R34, R26, R29). -/
def Obligations.ResetMeetsTheInvariant : Prop := State.reset.Inv

/-- 10_state.md R26, R29, R35, 60_exceptions.md R205, R206: every step keeps the invariant. A pending PCMD is a legal command,
ERR is 0 while it is pending, ERR is never above 3, and the host's variables stay in canonical form. -/
def Obligations.EveryStepKeepsTheInvariant : Prop :=
  ∀ s t : State, s.Inv → step s = .next t → t.Inv

/-! ### The host -/

/-- 30_encoding.md R83: what TST, BNZ, BZ, labels and HALT do to the host; none of them touches the block. That each is one turn, a
label too, that the first of two equal labels counts, and that a branch to a label the program does not define is refused is
the model's choice (log 2, 8, 10). -/
def Obligations.HostStatementsMoveOnlyTheHost : Prop :=
  ∀ (s : State) (st : HostStmt), s.nextTurn = .host → s.hostStmt = some st →
    (∀ t m, st = .tst t m → step s = .next { s with
      turns := s.turns.tail
      host := { s.host with pc := s.host.pc + 1, z := decide (readVar s.host.vars t &&& m = 0) } }) ∧
    (∀ l, ((st = .bnz l ∧ s.host.z = false) ∨ (st = .bz l ∧ s.host.z = true)) →
      (∀ pos, s.host.program[pos]? = some (.label l) → (∀ q, q < pos → s.host.program[q]? ≠ some (.label l)) →
        step s = .next { s with turns := s.turns.tail, host := { s.host with pc := pos } }) ∧
      ((∀ q : Nat, s.host.program[q]? ≠ some (.label l)) → step s = .refused (.undefinedLabel l))) ∧
    (∀ l, (st = .label l ∨ (st = .bnz l ∧ s.host.z = true) ∨ (st = .bz l ∧ s.host.z = false)) →
      step s = .next { s with turns := s.turns.tail, host := { s.host with pc := s.host.pc + 1 } }) ∧
    (st = .halt → step s = .next { s with turns := s.turns.tail, host := { s.host with halted := true } })

/-- 30_encoding.md R84 (CHKOK): it reads STATUS and masks it with 0xF2; so masked, STATUS is 0 exactly when ERR = 0 and
OVR = 0. -/
def Obligations.CheckOkTestsErrAndOverrun : Prop :=
  (∀ t, chkOkStmts t = [.rd t .status, .tst t 0xF2]) ∧
  ∀ s : State, statusWord s &&& 0xF2 = 0 ↔ s.err = 0 ∧ s.ovr = false

/-- 70_reset_and_hazards.md R249, 60_exceptions.md R218: that a step of an ended run leaves the machine as it is, where the
interface's step must still answer, is the model's choice (log 18): the host has halted with BUSY = 0 (R249) and no turn is
listed (the model's schedule, log 2). -/
def Obligations.EndedRunStaysAsItIs : Prop :=
  ∀ s : State, s.Ended → s.turns = [] → step s = .next s
end

