-- ==== Sys2Proof/Laws/Blocks.lean ====
section
/-! SUPPORT. The views of a block (10_state.md R22, R23, R39): bytes, matrix elements and words are one another's inverses; each
pure function of the cipher is said once by what its bytes or words are. -/

namespace Sys2Proof.Machine

/-- Two blocks with the same 16 bytes are equal. -/
theorem block_ext {a b : Block} (h : ∀ i : Fin 16, byteAt a i.val = byteAt b i.val) : a = b := by
  apply Vector.ext
  intro i hi
  have := h ⟨i, hi⟩
  simpa [byteAt, Nat.mod_eq_of_lt hi] using this

theorem byteAt_blockOfFn (f : Fin 16 → Byte) (i : Nat) :
    byteAt (blockOfFn f) i = f ⟨i % 16, Nat.mod_lt i (by decide)⟩ := by
  simp [byteAt, blockOfFn]

@[simp] theorem byteAt_blockOfFn_lt (f : Fin 16 → Byte) (i : Nat) (h : i < 16) :
    byteAt (blockOfFn f) i = f ⟨i, h⟩ := by
  simp [byteAt_blockOfFn, Nat.mod_eq_of_lt h]

theorem byteAt_mod (b : Block) (i : Nat) : byteAt b (i % 16) = byteAt b i := by simp [byteAt]

@[simp] theorem wordByte_wordOfBytes_0 (a b c d : Byte) : wordByte (wordOfBytes a b c d) 0 = a := by
  apply BitVec.eq_of_getLsbD_eq
  intro i hi
  simp only [wordByte, wordOfBytes, BitVec.getLsbD_append, BitVec.getLsbD_extractLsb']
  interval_cases i <;> simp

@[simp] theorem wordByte_wordOfBytes_1 (a b c d : Byte) : wordByte (wordOfBytes a b c d) 1 = b := by
  apply BitVec.eq_of_getLsbD_eq
  intro i hi
  simp only [wordByte, wordOfBytes, BitVec.getLsbD_append, BitVec.getLsbD_extractLsb']
  interval_cases i <;> simp

@[simp] theorem wordByte_wordOfBytes_2 (a b c d : Byte) : wordByte (wordOfBytes a b c d) 2 = c := by
  apply BitVec.eq_of_getLsbD_eq
  intro i hi
  simp only [wordByte, wordOfBytes, BitVec.getLsbD_append, BitVec.getLsbD_extractLsb']
  interval_cases i <;> simp

@[simp] theorem wordByte_wordOfBytes_3 (a b c d : Byte) : wordByte (wordOfBytes a b c d) 3 = d := by
  apply BitVec.eq_of_getLsbD_eq
  intro i hi
  simp only [wordByte, wordOfBytes, BitVec.getLsbD_append, BitVec.getLsbD_extractLsb']
  interval_cases i <;> simp

/-- A word is its four bytes. -/
@[simp] theorem wordOfBytes_wordByte (w : Word) :
    wordOfBytes (wordByte w 0) (wordByte w 1) (wordByte w 2) (wordByte w 3) = w := by
  apply BitVec.eq_of_getLsbD_eq
  intro i hi
  simp only [wordByte, wordOfBytes, BitVec.getLsbD_append, BitVec.getLsbD_extractLsb']
  interval_cases i <;> simp

/-- Byte `j` of word `k` of a block is its byte `4k + j` (R23, R53). -/
theorem wordByte_blockWord (b : Block) (k j : Fin 4) :
    wordByte (blockWord b k) j.val = byteAt b (4 * k.val + j.val) := by
  fin_cases j <;> simp [blockWord]

/-- Words written into a block are the words read back. -/
@[simp] theorem blockWord_blockOfWords_0 (w0 w1 w2 w3 : Word) : blockWord (blockOfWords w0 w1 w2 w3) 0 = w0 := by
  simp [blockWord, blockOfWords]

@[simp] theorem blockWord_blockOfWords_1 (w0 w1 w2 w3 : Word) : blockWord (blockOfWords w0 w1 w2 w3) 1 = w1 := by
  simp [blockWord, blockOfWords]

@[simp] theorem blockWord_blockOfWords_2 (w0 w1 w2 w3 : Word) : blockWord (blockOfWords w0 w1 w2 w3) 2 = w2 := by
  simp [blockWord, blockOfWords]

@[simp] theorem blockWord_blockOfWords_3 (w0 w1 w2 w3 : Word) : blockWord (blockOfWords w0 w1 w2 w3) 3 = w3 := by
  simp [blockWord, blockOfWords]

/-- A block is its four words. -/
@[simp] theorem blockOfWords_blockWord (b : Block) :
    blockOfWords (blockWord b 0) (blockWord b 1) (blockWord b 2) (blockWord b 3) = b := by
  apply block_ext
  intro i
  fin_cases i <;> simp [blockOfWords, blockWord]

/-- Two blocks with the same four words are equal. -/
theorem block_ext_words {a b : Block} (h : ∀ k : Fin 4, blockWord a k = blockWord b k) : a = b := by
  rw [← blockOfWords_blockWord a, ← blockOfWords_blockWord b, h 0, h 1, h 2, h 3]

@[simp] theorem blockWord_setBlockWord (b : Block) (k : Fin 4) (v : Word) :
    blockWord (setBlockWord b k v) k = v := by
  fin_cases k <;> simp [blockWord, setBlockWord]

theorem blockWord_setBlockWord_ne (b : Block) (k j : Fin 4) (v : Word) (h : j ≠ k) :
    blockWord (setBlockWord b k v) j = blockWord b j := by
  fin_cases k <;> fin_cases j <;> simp_all [blockWord, setBlockWord]

theorem matrixAt_blockOfFn (f : Fin 16 → Byte) (r c : Fin 4) :
    matrixAt (blockOfFn f) r.val c.val = f ⟨r.val + 4 * c.val, by omega⟩ :=
  byteAt_blockOfFn_lt f _ _

@[simp] theorem byteAt_addRoundKey (s k : Block) (i : Nat) :
    byteAt (addRoundKey s k) i = byteAt s i ^^^ byteAt k i := by
  simp [addRoundKey, byteAt_blockOfFn, byteAt_mod]

theorem byteAt_subShift (s : Block) (i : Fin 16) :
    byteAt (subShift s) i.val = romS (matrixAt s (i.val % 4) ((i.val / 4 + i.val % 4) % 4)) :=
  byteAt_blockOfFn_lt _ _ i.isLt

theorem byteAt_mixColumns (s : Block) (i : Fin 16) :
    byteAt (mixColumns s) i.val = mixByte (fun r => matrixAt s r (i.val / 4)) (i.val % 4) :=
  byteAt_blockOfFn_lt _ _ i.isLt

@[simp] theorem roundFn_nomix (s k : Block) : roundFn s k true = addRoundKey (subShift s) k := rfl

@[simp] theorem roundFn_mix (s k : Block) : roundFn s k false = addRoundKey (mixColumns (subShift s)) k := rfl

end Sys2Proof.Machine
end

