-- ==== Sys2Proof/Laws/Decode.lean ====
section
/-! SUPPORT. The decoder, said once: what it accepts and why it rejects (30_encoding.md R81). -/

namespace Sys2Proof

/-- What an accepted word is (R81). -/
theorem decode_ok_iff (v : Word) (i : Instr) :
    decode v = .ok i ↔ commandOf v = some i ∧ highReserved v = 0 ∧ lowReserved v = 0 ∧
      v &&& unusedMask (opField v) = 0 ∧ rndInRange (opField v) (rndField v) = true := by
  unfold decode
  cases h : commandOf v with
  | none => simp
  | some j =>
    by_cases hr : highReserved v ≠ 0 ∨ lowReserved v ≠ 0
    · simp only [hr, if_true, Option.some.injEq]
      constructor
      · intro h'; cases h'
      · rintro ⟨_, h1, h2, _⟩; simp [h1, h2] at hr
    · push Not at hr
      by_cases hu : v &&& unusedMask (opField v) = 0
      · cases hn : rndInRange (opField v) (rndField v) <;> simp [hr, hu]
      · simp only [hr.1, hr.2, hu, ne_eq, not_true_eq_false, or_self, ↓reduceIte, not_false_eq_true, reduceCtorEq,
          false_and, and_false]

/-- A decoded command names the opcode of its word. -/
theorem commandOf_opcode {v : Word} {i : Instr} (h : commandOf v = some i) : i.opcode = opField v := by
  unfold commandOf at h
  split at h <;> first | (cases h; done) | skip
  all_goals
    rename_i heq
    cases h
    apply BitVec.eq_of_toNat_eq
    rw [heq]
    rfl

/-- Only a reserved opcode names no command (R71, R78). -/
theorem commandOf_none {v : Word} : commandOf v = none ↔ 12 ≤ (opField v).toNat := by
  unfold commandOf
  have := (opField v).isLt
  split <;> simp_all
  omega

/-- The decoder gives well-formed commands only (R73). -/
theorem decode_ok_wf {v : Word} {i : Instr} (h : decode v = .ok i) : i.wf = true := by
  obtain ⟨hc, -, -, -, hr⟩ := (decode_ok_iff v i).mp h
  unfold commandOf at hc
  unfold rndInRange at hr
  split at hc
  all_goals simp_all [Instr.wf]
  all_goals (subst hc; simp_all)

/-- A word is its fields (30_encoding.md R70). -/
theorem word_fields (v : Word) :
    v.toNat = (highReserved v).toNat * 2^21 + (nomixField v).toNat * 2^20 + (rndField v).toNat * 2^16 +
      (imm8Field v).toNat * 2^8 + (lowReserved v).toNat * 2^4 + (opField v).toNat := by
  have h := v.isLt
  simp only [highReserved, nomixField, rndField, imm8Field, lowReserved, opField, BitVec.extractLsb'_toNat, BitVec.getLsbD,
    Nat.testBit_eq_decide_div_mod_eq, Nat.shiftRight_eq_div_pow]
  have : (decide (v.toNat / 2^20 % 2 = 1)).toNat = v.toNat / 2^20 % 2 := by
    rcases Nat.mod_two_eq_zero_or_one (v.toNat / 2^20) with h | h <;> rw [h] <;> rfl
  rw [this]
  omega

/-- The value of Enc (R77): its fields do not overlap. -/
theorem enc_toNat (op : BitVec 4) (imm8 : Byte) (rnd : BitVec 4) (nomix : Bool) :
    (enc op imm8 rnd nomix).toNat = (if nomix then 2 ^ 20 else 0) + rnd.toNat * 2 ^ 16 + imm8.toNat * 2 ^ 8 + op.toNat := by
  have h1 := op.isLt
  have h2 := imm8.isLt
  have h3 := rnd.isLt
  unfold enc
  simp only [BitVec.toNat_or, BitVec.toNat_shiftLeft, BitVec.toNat_setWidth, BitVec.toNat_ofBool]
  have e1 : op.toNat % 2^32 = op.toNat := Nat.mod_eq_of_lt (by omega)
  have e2 : (imm8.toNat % 2^32) <<< 8 % 2^32 = imm8.toNat <<< 8 := by
    rw [Nat.mod_eq_of_lt (a := imm8.toNat) (by omega)]
    apply Nat.mod_eq_of_lt
    simp [Nat.shiftLeft_eq]
    omega
  have e3 : (rnd.toNat % 2^32) <<< 16 % 2^32 = rnd.toNat <<< 16 := by
    rw [Nat.mod_eq_of_lt (a := rnd.toNat) (by omega)]
    apply Nat.mod_eq_of_lt
    simp [Nat.shiftLeft_eq]
    omega
  have e4 : (nomix.toNat % 2^32) <<< 20 % 2^32 = nomix.toNat <<< 20 := by cases nomix <;> rfl
  rw [e1, e2, e3, e4]
  rw [Nat.or_assoc, Nat.or_assoc]
  rw [← Nat.shiftLeft_add_eq_or_of_lt (b := op.toNat) (i := 8) (by omega)]
  rw [← Nat.shiftLeft_add_eq_or_of_lt (i := 16) (by simp [Nat.shiftLeft_eq]; omega)]
  rw [← Nat.shiftLeft_add_eq_or_of_lt (i := 20) (by simp [Nat.shiftLeft_eq]; omega)]
  simp only [Nat.shiftLeft_eq]
  cases nomix <;> simp <;> omega

/-- Two words with the same fields are equal. -/
theorem word_ext_fields {v w : Word} (h1 : highReserved v = highReserved w) (h2 : nomixField v = nomixField w)
    (h3 : rndField v = rndField w) (h4 : imm8Field v = imm8Field w) (h5 : lowReserved v = lowReserved w) (h6 : opField v = opField w) : v = w := by
  apply BitVec.eq_of_toNat_eq
  rw [word_fields v, word_fields w, h1, h2, h3, h4, h5, h6]

/-- A mask that covers IMM8 and misses the word says that IMM8 is 0 (R76). -/
theorem imm8_of_mask {v : Word} {m : Word} (hm : imm8Field m = 0xFF) (h : v &&& m = 0) : imm8Field v = 0 := by
  have := congrArg imm8Field h
  simp only [imm8Field, BitVec.extractLsb'_and] at this hm ⊢
  rw [hm] at this
  rw [show (0xFF : Byte) = BitVec.allOnes 8 from rfl, BitVec.and_allOnes] at this
  exact this

/-- The same for RND. -/
theorem rnd_of_mask {v : Word} {m : Word} (hm : rndField m = 0xF) (h : v &&& m = 0) : rndField v = 0 := by
  have := congrArg rndField h
  simp only [rndField, BitVec.extractLsb'_and] at this hm ⊢
  rw [hm] at this
  rw [show (0xF : BitVec 4) = BitVec.allOnes 4 from rfl, BitVec.and_allOnes] at this
  exact this

/-- The same for NOMIX. -/
theorem nomix_of_mask {v : Word} {m : Word} (hm : nomixField m = true) (h : v &&& m = 0) : nomixField v = false := by
  have := congrArg nomixField h
  simp only [nomixField, BitVec.getLsbD_and] at this hm ⊢
  rw [hm] at this
  simpa using this

/-- The fields of Enc are its arguments (R77). -/
theorem enc_fields (op : BitVec 4) (imm8 : Byte) (rnd : BitVec 4) (nomix : Bool) :
    highReserved (enc op imm8 rnd nomix) = 0 ∧ nomixField (enc op imm8 rnd nomix) = nomix ∧
    rndField (enc op imm8 rnd nomix) = rnd ∧ imm8Field (enc op imm8 rnd nomix) = imm8 ∧
    lowReserved (enc op imm8 rnd nomix) = 0 ∧ opField (enc op imm8 rnd nomix) = op := by
  have h := enc_toNat op imm8 rnd nomix
  have h1 := op.isLt
  have h2 := imm8.isLt
  have h3 := rnd.isLt
  generalize enc op imm8 rnd nomix = v at *
  have hf := word_fields v
  have := (highReserved v).isLt
  have := (rndField v).isLt
  have := (imm8Field v).isLt
  have := (lowReserved v).isLt
  have := (opField v).isLt
  have hb : (nomixField v).toNat ≤ 1 := by cases nomixField v <;> simp
  rw [h] at hf
  have hn : (if nomix then 2^20 else 0) = nomix.toNat * 2^20 := by cases nomix <;> rfl
  have hb' : nomix.toNat ≤ 1 := by cases nomix <;> simp
  rw [hn] at hf
  refine ⟨?_, ?_, ?_, ?_, ?_, ?_⟩
  · apply BitVec.eq_of_toNat_eq; simp; omega
  · have : (nomixField v).toNat = nomix.toNat := by omega
    cases nomix <;> cases hx : nomixField v <;> simp_all
  all_goals (apply BitVec.eq_of_toNat_eq; (try simp only [BitVec.ofNat_eq_ofNat, BitVec.toNat_ofNat]); omega)

end Sys2Proof
end

