-- ==== Sys2Proof/Laws/State.lean ====
section
/-! SUPPORT. What each update of the state writes and what it leaves: one lemma per field, so that no proof unfolds a record
update. -/

namespace Sys2Proof.Machine

section
variable (s : State)

@[simp] theorem reject_err (why : Reject) : (s.reject why).err = errCode why := rfl
@[simp] theorem reject_stateReg (why : Reject) : (s.reject why).stateReg = s.stateReg := rfl
@[simp] theorem reject_keyReg (why : Reject) : (s.reject why).keyReg = s.keyReg := rfl
@[simp] theorem reject_result (why : Reject) : (s.reject why).result = s.result := rfl
@[simp] theorem reject_busy (why : Reject) : (s.reject why).busy = s.busy := rfl
@[simp] theorem reject_ovr (why : Reject) : (s.reject why).ovr = s.ovr := rfl
@[simp] theorem reject_pcmd (why : Reject) : (s.reject why).pcmd = s.pcmd := rfl
@[simp] theorem reject_wkey (why : Reject) : (s.reject why).wkey = s.wkey := rfl
@[simp] theorem reject_wround (why : Reject) : (s.reject why).wround = s.wround := rfl
@[simp] theorem reject_host (why : Reject) : (s.reject why).host = s.host := rfl
@[simp] theorem reject_turns (why : Reject) : (s.reject why).turns = s.turns := rfl
@[simp] theorem reject_draws (why : Reject) : (s.reject why).draws = s.draws := rfl

@[simp] theorem overrun_ovr : s.overrun.ovr = true := rfl
@[simp] theorem overrun_stateReg : s.overrun.stateReg = s.stateReg := rfl
@[simp] theorem overrun_keyReg : s.overrun.keyReg = s.keyReg := rfl
@[simp] theorem overrun_result : s.overrun.result = s.result := rfl
@[simp] theorem overrun_busy : s.overrun.busy = s.busy := rfl
@[simp] theorem overrun_err : s.overrun.err = s.err := rfl
@[simp] theorem overrun_pcmd : s.overrun.pcmd = s.pcmd := rfl
@[simp] theorem overrun_wkey : s.overrun.wkey = s.wkey := rfl
@[simp] theorem overrun_wround : s.overrun.wround = s.wround := rfl
@[simp] theorem overrun_host : s.overrun.host = s.host := rfl
@[simp] theorem overrun_turns : s.overrun.turns = s.turns := rfl
@[simp] theorem overrun_draws : s.overrun.draws = s.draws := rfl

@[simp] theorem accept_pcmd (v : Word) : (s.accept v).pcmd = v := rfl
@[simp] theorem accept_err (v : Word) : (s.accept v).err = errOk := rfl
@[simp] theorem accept_busy (v : Word) : (s.accept v).busy = true := rfl
@[simp] theorem accept_stateReg (v : Word) : (s.accept v).stateReg = s.stateReg := rfl
@[simp] theorem accept_keyReg (v : Word) : (s.accept v).keyReg = s.keyReg := rfl
@[simp] theorem accept_result (v : Word) : (s.accept v).result = s.result := rfl
@[simp] theorem accept_ovr (v : Word) : (s.accept v).ovr = s.ovr := rfl
@[simp] theorem accept_wkey (v : Word) : (s.accept v).wkey = s.wkey := rfl
@[simp] theorem accept_wround (v : Word) : (s.accept v).wround = s.wround := rfl
@[simp] theorem accept_host (v : Word) : (s.accept v).host = s.host := rfl
@[simp] theorem accept_turns (v : Word) : (s.accept v).turns = s.turns := rfl
@[simp] theorem accept_draws (v : Word) : (s.accept v).draws = s.draws := rfl

variable (st key : Block) (res : Byte)

@[simp] theorem complete_stateReg : (s.complete st key res).stateReg = st := rfl
@[simp] theorem complete_keyReg : (s.complete st key res).keyReg = key := rfl
@[simp] theorem complete_result : (s.complete st key res).result = res := rfl
@[simp] theorem complete_busy : (s.complete st key res).busy = false := rfl
@[simp] theorem complete_ovr : (s.complete st key res).ovr = s.ovr := rfl
@[simp] theorem complete_err : (s.complete st key res).err = s.err := rfl
@[simp] theorem complete_host : (s.complete st key res).host = s.host := rfl
@[simp] theorem complete_turns : (s.complete st key res).turns = s.turns := rfl
@[simp] theorem complete_draws : (s.complete st key res).draws = s.draws + 1 := rfl
@[simp] theorem complete_pcmd : (s.complete st key res).pcmd = Config.anyPcmd s.draws := rfl
@[simp] theorem complete_wkey : (s.complete st key res).wkey = Config.anyWkey s.draws := rfl
@[simp] theorem complete_wround : (s.complete st key res).wround = Config.anyRound s.draws := rfl

@[simp] theorem applyReset_stateReg : s.applyReset.stateReg = Vector.replicate 16 0 := rfl
@[simp] theorem applyReset_keyReg : s.applyReset.keyReg = Vector.replicate 16 0 := rfl
@[simp] theorem applyReset_result : s.applyReset.result = 0 := rfl
@[simp] theorem applyReset_busy : s.applyReset.busy = false := rfl
@[simp] theorem applyReset_ovr : s.applyReset.ovr = false := rfl
@[simp] theorem applyReset_err : s.applyReset.err = 0 := rfl
@[simp] theorem applyReset_host : s.applyReset.host = s.host := rfl
@[simp] theorem applyReset_turns : s.applyReset.turns = s.turns := rfl
@[simp] theorem applyReset_draws : s.applyReset.draws = s.draws + 1 := rfl
@[simp] theorem applyReset_pcmd : s.applyReset.pcmd = Config.anyPcmd s.draws := rfl
@[simp] theorem applyReset_wkey : s.applyReset.wkey = Config.anyWkey s.draws := rfl
@[simp] theorem applyReset_wround : s.applyReset.wround = Config.anyRound s.draws := rfl

variable (t : Nat) (v : Word)

@[simp] theorem takeAnswer_stateReg : (s.takeAnswer t v).stateReg = s.stateReg := rfl
@[simp] theorem takeAnswer_keyReg : (s.takeAnswer t v).keyReg = s.keyReg := rfl
@[simp] theorem takeAnswer_result : (s.takeAnswer t v).result = s.result := rfl
@[simp] theorem takeAnswer_busy : (s.takeAnswer t v).busy = s.busy := rfl
@[simp] theorem takeAnswer_ovr : (s.takeAnswer t v).ovr = s.ovr := rfl
@[simp] theorem takeAnswer_err : (s.takeAnswer t v).err = s.err := rfl
@[simp] theorem takeAnswer_pcmd : (s.takeAnswer t v).pcmd = s.pcmd := rfl
@[simp] theorem takeAnswer_wkey : (s.takeAnswer t v).wkey = s.wkey := rfl
@[simp] theorem takeAnswer_wround : (s.takeAnswer t v).wround = s.wround := rfl
@[simp] theorem takeAnswer_turns : (s.takeAnswer t v).turns = s.turns := rfl
@[simp] theorem takeAnswer_draws : (s.takeAnswer t v).draws = s.draws + 1 := rfl
@[simp] theorem takeAnswer_vars : (s.takeAnswer t v).host.vars = writeVar s.host.vars t v := rfl
@[simp] theorem takeAnswer_pc : (s.takeAnswer t v).host.pc = s.host.pc := rfl
@[simp] theorem takeAnswer_program : (s.takeAnswer t v).host.program = s.host.program := rfl
@[simp] theorem takeAnswer_z : (s.takeAnswer t v).host.z = s.host.z := rfl
@[simp] theorem takeAnswer_halted : (s.takeAnswer t v).host.halted = s.host.halted := rfl

@[simp] theorem takeTurn_stateReg : s.takeTurn.stateReg = s.stateReg := rfl
@[simp] theorem takeTurn_keyReg : s.takeTurn.keyReg = s.keyReg := rfl
@[simp] theorem takeTurn_result : s.takeTurn.result = s.result := rfl
@[simp] theorem takeTurn_busy : s.takeTurn.busy = s.busy := rfl
@[simp] theorem takeTurn_ovr : s.takeTurn.ovr = s.ovr := rfl
@[simp] theorem takeTurn_err : s.takeTurn.err = s.err := rfl
@[simp] theorem takeTurn_pcmd : s.takeTurn.pcmd = s.pcmd := rfl
@[simp] theorem takeTurn_wkey : s.takeTurn.wkey = s.wkey := rfl
@[simp] theorem takeTurn_wround : s.takeTurn.wround = s.wround := rfl
@[simp] theorem takeTurn_host : s.takeTurn.host = s.host := rfl
@[simp] theorem takeTurn_turns : s.takeTurn.turns = s.turns.tail := rfl
@[simp] theorem takeTurn_draws : s.takeTurn.draws = s.draws := rfl
@[simp] theorem takeTurn_hostStmt : s.takeTurn.hostStmt = s.hostStmt := rfl

@[simp] theorem hostNext_stateReg : s.hostNext.stateReg = s.stateReg := rfl
@[simp] theorem hostNext_keyReg : s.hostNext.keyReg = s.keyReg := rfl
@[simp] theorem hostNext_result : s.hostNext.result = s.result := rfl
@[simp] theorem hostNext_busy : s.hostNext.busy = s.busy := rfl
@[simp] theorem hostNext_ovr : s.hostNext.ovr = s.ovr := rfl
@[simp] theorem hostNext_err : s.hostNext.err = s.err := rfl
@[simp] theorem hostNext_pcmd : s.hostNext.pcmd = s.pcmd := rfl
@[simp] theorem hostNext_wkey : s.hostNext.wkey = s.wkey := rfl
@[simp] theorem hostNext_wround : s.hostNext.wround = s.wround := rfl
@[simp] theorem hostNext_turns : s.hostNext.turns = s.turns := rfl
@[simp] theorem hostNext_draws : s.hostNext.draws = s.draws := rfl
@[simp] theorem hostNext_vars : s.hostNext.host.vars = s.host.vars := rfl
@[simp] theorem hostNext_program : s.hostNext.host.program = s.host.program := rfl
@[simp] theorem hostNext_pc : s.hostNext.host.pc = s.host.pc + 1 := rfl
@[simp] theorem hostNext_z : s.hostNext.host.z = s.host.z := rfl
@[simp] theorem hostNext_halted : s.hostNext.host.halted = s.host.halted := rfl

end

end Sys2Proof.Machine
end

