-- ==== Sys2Proof/Laws/Ops.lean ====
section
/-! SUPPORT. Each shared operation, said once: everything it can do. Proofs cite these and do not unfold the operations. -/

namespace Sys2Proof.Machine

/-- A CMD write has exactly one of three outcomes (60_exceptions.md R208). -/
theorem commandWrite_cases (v : Word) (s : State) :
    (s.busy = true ∧ commandWrite v s = s.overrun) ∨
    (s.busy = false ∧ ∃ why, decode v = .error why ∧ commandWrite v s = s.reject why) ∨
    (s.busy = false ∧ ∃ i, decode v = .ok i ∧ commandWrite v s = s.accept v) := by
  unfold commandWrite
  cases hb : s.busy with
  | true => simp
  | false =>
    cases hd : decode v with
    | error why => simp
    | ok i => simp

/-- What a host write can do to the state (20_memory.md R59). -/
theorem hostWrite_cases (r : Reg) (v : Word) (s : State) :
    (r = .cmd ∧ hostWrite r v s = commandWrite v s) ∨
    (r = .status ∧ hostWrite r v s = s.clearOverrun v) ∨
    ((r = .result ∨ r = .id ∨ ∃ k, r = .reserved k) ∧ hostWrite r v s = s) ∨
    (((∃ k, r = .stateW k) ∨ ∃ k, r = .keyW k) ∧ s.busy = true ∧ hostWrite r v s = s.overrun) ∨
    (∃ k, r = .stateW k ∧ s.busy = false ∧ hostWrite r v s = { s with stateReg := setBlockWord s.stateReg k v }) ∨
    (∃ k, r = .keyW k ∧ s.busy = false ∧ hostWrite r v s = { s with keyReg := setBlockWord s.keyReg k v }) := by
  cases r <;> cases hb : s.busy <;> simp [hostWrite, hb]

@[simp] theorem clearOverrun_stateReg (s : State) (v : Word) : (s.clearOverrun v).stateReg = s.stateReg := by
  unfold State.clearOverrun; split <;> rfl
@[simp] theorem clearOverrun_keyReg (s : State) (v : Word) : (s.clearOverrun v).keyReg = s.keyReg := by
  unfold State.clearOverrun; split <;> rfl
@[simp] theorem clearOverrun_result (s : State) (v : Word) : (s.clearOverrun v).result = s.result := by
  unfold State.clearOverrun; split <;> rfl
@[simp] theorem clearOverrun_busy (s : State) (v : Word) : (s.clearOverrun v).busy = s.busy := by
  unfold State.clearOverrun; split <;> rfl
@[simp] theorem clearOverrun_err (s : State) (v : Word) : (s.clearOverrun v).err = s.err := by
  unfold State.clearOverrun; split <;> rfl
@[simp] theorem clearOverrun_pcmd (s : State) (v : Word) : (s.clearOverrun v).pcmd = s.pcmd := by
  unfold State.clearOverrun; split <;> rfl
@[simp] theorem clearOverrun_wkey (s : State) (v : Word) : (s.clearOverrun v).wkey = s.wkey := by
  unfold State.clearOverrun; split <;> rfl
@[simp] theorem clearOverrun_wround (s : State) (v : Word) : (s.clearOverrun v).wround = s.wround := by
  unfold State.clearOverrun; split <;> rfl
@[simp] theorem clearOverrun_host (s : State) (v : Word) : (s.clearOverrun v).host = s.host := by
  unfold State.clearOverrun; split <;> rfl
@[simp] theorem clearOverrun_turns (s : State) (v : Word) : (s.clearOverrun v).turns = s.turns := by
  unfold State.clearOverrun; split <;> rfl
@[simp] theorem clearOverrun_draws (s : State) (v : Word) : (s.clearOverrun v).draws = s.draws := by
  unfold State.clearOverrun; split <;> rfl

/-- No host write touches the host or the turns. -/
@[simp] theorem hostWrite_host (r : Reg) (v : Word) (s : State) : (hostWrite r v s).host = s.host := by
  rcases hostWrite_cases r v s with ⟨_, h⟩ | ⟨_, h⟩ | ⟨_, h⟩ | ⟨_, _, h⟩ | ⟨_, _, _, h⟩ | ⟨_, _, _, h⟩ <;> rw [h]
  · rcases commandWrite_cases v s with ⟨_, h⟩ | ⟨_, _, _, h⟩ | ⟨_, _, _, h⟩ <;> rw [h] <;> rfl
  · simp
  · rfl

@[simp] theorem hostWrite_turns (r : Reg) (v : Word) (s : State) : (hostWrite r v s).turns = s.turns := by
  rcases hostWrite_cases r v s with ⟨_, h⟩ | ⟨_, h⟩ | ⟨_, h⟩ | ⟨_, _, h⟩ | ⟨_, _, _, h⟩ | ⟨_, _, _, h⟩ <;> rw [h]
  · rcases commandWrite_cases v s with ⟨_, h⟩ | ⟨_, _, _, h⟩ | ⟨_, _, _, h⟩ <;> rw [h] <;> rfl
  · simp
  · rfl

/-- No host write touches the engine's hidden working key or round counter. -/
@[simp] theorem hostWrite_wkey (r : Reg) (v : Word) (s : State) : (hostWrite r v s).wkey = s.wkey := by
  rcases hostWrite_cases r v s with ⟨_, h⟩ | ⟨_, h⟩ | ⟨_, h⟩ | ⟨_, _, h⟩ | ⟨_, _, _, h⟩ | ⟨_, _, _, h⟩ <;> rw [h]
  · rcases commandWrite_cases v s with ⟨_, h⟩ | ⟨_, _, _, h⟩ | ⟨_, _, _, h⟩ <;> rw [h] <;> rfl
  · simp
  · rfl

@[simp] theorem hostWrite_wround (r : Reg) (v : Word) (s : State) : (hostWrite r v s).wround = s.wround := by
  rcases hostWrite_cases r v s with ⟨_, h⟩ | ⟨_, h⟩ | ⟨_, h⟩ | ⟨_, _, h⟩ | ⟨_, _, _, h⟩ | ⟨_, _, _, h⟩ <;> rw [h]
  · rcases commandWrite_cases v s with ⟨_, h⟩ | ⟨_, _, _, h⟩ | ⟨_, _, _, h⟩ <;> rw [h] <;> rfl
  · simp
  · rfl

/-- The slot at a register's offset is the register (20_memory.md R52). -/
@[simp] theorem regAt_regOffset (r : Reg) : regAt (regOffset r) = r := by
  cases r with
  | stateW k => fin_cases k <;> rfl
  | keyW k => fin_cases k <;> rfl
  | reserved k => fin_cases k <;> rfl
  | _ => rfl

theorem regOffset_lt (r : Reg) : regOffset r < 64 := by
  cases r <;> simp [regOffset] <;> omega

theorem regOffset_aligned (r : Reg) : regOffset r % 4 = 0 := by
  cases r <;> simp [regOffset]

/-- Every aligned offset of the window is the offset of its slot (20_memory.md R52). -/
theorem regOffset_regAt (off : Nat) (h : off < 64) (ha : off % 4 = 0) : regOffset (regAt off) = off := by
  obtain ⟨n, rfl⟩ : ∃ n, off = 4 * n := ⟨off / 4, by omega⟩
  have : n < 16 := by omega
  interval_cases n <;> rfl

/-- The window is `BASE .. BASE+0x3F` (20_memory.md R50, R56). -/
theorem inWindow_iff (addr : Nat) : inWindow addr = true ↔ Config.base ≤ addr ∧ addr < Config.base + 64 := by
  simp only [inWindow, Bool.and_eq_true, decide_eq_true_eq]
  rfl

/-- A 32-bit access at a register's address is served at that register (20_memory.md R52-R56). -/
@[simp] theorem classify_regAddr (r : Reg) : classify (regAddr r) .w32 = .served r := by
  have h1 := regOffset_lt r
  have h2 := regOffset_aligned r
  have hw : inWindow (regAddr r) = true := by
    rw [inWindow_iff]
    simp [regAddr, h1]
  unfold classify
  rw [hw]
  simp [regAddr, h2]

/-- `WR REG, v` is a served write (30_encoding.md R83). -/
@[simp] theorem busWrite_regAddr (r : Reg) (v : Word) (s : State) :
    busWrite (regAddr r) .w32 v s = .next (hostWrite r v s) := by
  simp [busWrite]

/-- `RD t, REG` is a served read (30_encoding.md R83). -/
@[simp] theorem busRead_regAddr (t : Nat) (r : Reg) (s : State) :
    busRead t (regAddr r) .w32 s = .next (s.takeAnswer t (hostRead r s)) := by
  simp [busRead]

/-- What a served access is (20_memory.md R54-R56). -/
theorem classify_served {addr : Nat} {width : Width} {r : Reg} (h : classify addr width = .served r) :
    width = .w32 ∧ addr = regAddr r := by
  unfold classify at h
  split at h
  · cases h
  · split at h
    · cases h
    · rename_i hw hm
      push Not at hm
      have hw' := (inWindow_iff addr).mp (by simpa using hw)
      cases h
      refine ⟨hm.1, ?_⟩
      have := regOffset_regAt (addr - Config.base) (by omega) hm.2
      simp only [regAddr, this]
      omega

/-- A write keeps the canonical form of the host's variables. -/
theorem writeVar_sorted (vars : List (Nat × Word)) (t : Nat) (v : Word) (h : varsSorted vars) :
    varsSorted (writeVar vars t v) := by
  induction vars with
  | nil => simp [writeVar, varsSorted]
  | cons p rest ih =>
    obtain ⟨u, w⟩ := p
    unfold varsSorted at h ih ⊢
    rw [List.pairwise_cons] at h
    unfold writeVar
    split
    · rw [List.pairwise_cons, List.pairwise_cons]
      refine ⟨?_, h⟩
      intro q hq
      rcases List.mem_cons.mp hq with rfl | hq
      · assumption
      · have := h.1 q hq
        simp only at this ⊢
        omega
    · split
      · rename_i htu
        subst htu
        exact List.pairwise_cons.mpr h
      · rw [List.pairwise_cons]
        refine ⟨?_, ih h.2⟩
        intro q hq
        have hmem : q = (t, v) ∨ q ∈ rest := by
          clear ih h
          induction rest with
          | nil => simpa [writeVar] using hq
          | cons p rest ih2 =>
            obtain ⟨a, b⟩ := p
            unfold writeVar at hq
            split at hq
            · simp only [List.mem_cons] at hq ⊢; tauto
            · split at hq
              · simp only [List.mem_cons] at hq ⊢; tauto
              · simp only [List.mem_cons] at hq ⊢
                rcases hq with rfl | hq
                · tauto
                · have := ih2 hq; tauto
        rcases hmem with rfl | hq
        · simp only; omega
        · exact h.1 q hq

/-- A variable reads as it was last written. -/
theorem readVar_writeVar (vars : List (Nat × Word)) (t u : Nat) (v : Word) :
    readVar (writeVar vars t v) u = if u = t then v else readVar vars u := by
  induction vars with
  | nil => simp [writeVar, readVar, eq_comm]
  | cons p rest ih =>
    obtain ⟨a, b⟩ := p
    unfold writeVar
    split
    · simp [readVar, eq_comm]
    · split
      · rename_i h; subst h
        by_cases h2 : u = t
        · simp [readVar, h2]
        · simp [readVar, h2, Ne.symm h2]
      · rename_i h1 h2
        simp only [readVar, ih]
        by_cases h3 : a = u
        · subst h3; simp [Ne.symm h2]
        · simp [h3]

end Sys2Proof.Machine
end

