-- ==== Sys2Proof/Laws/Step.lean ====
section
/-! SUPPORT. What a command, an agent's turn and a step can do, said once (10_state.md R36, R37; 30_encoding.md R83). -/

namespace Sys2Proof.Machine

/-- A completion, as claims say it. -/
theorem completesWith_complete (s : State) (st key : Block) (res : Byte) :
    CompletesWith s (s.complete st key res) st key res :=
  ⟨rfl, rfl, rfl, rfl, rfl, rfl, rfl, rfl⟩

/-- A legal round index is read as itself (30_encoding.md R73). -/
@[simp] theorem roundIndex_ofNat (r : Fin 10) : roundIndex (BitVec.ofNat 4 r.val) = some r := by
  revert r; decide

/-- A legal round count is read as itself (30_encoding.md R73). -/
theorem roundCount_ofNat (n : Nat) (h : 1 ≤ n) (h' : n ≤ 10) : roundCount (BitVec.ofNat 4 n) = some n := by
  interval_cases n <;> rfl

/-- The round-indexed commands at a legal index. -/
theorem withRoundIndex_ofNat (r : Fin 10) (run : Fin 10 → Host.Outcome State Fault Refusal) :
    withRoundIndex (BitVec.ofNat 4 r.val) run = run r := by
  simp [withRoundIndex, -BitVec.natCast_eq_ofNat]

/-- ENCRYPT at a legal round count. -/
theorem withRoundCount_ofNat (n : Nat) (h : 1 ≤ n) (h' : n ≤ 10) (run : Nat → Host.Outcome State Fault Refusal) :
    withRoundCount (BitVec.ofNat 4 n) run = run n := by
  simp [withRoundCount, roundCount_ofNat n h h']

/-- A well-formed command completes with some data (10_state.md R36, R37). -/
theorem exec_wf (i : Instr) (s : State) (h : i.wf = true) :
    ∃ st key res, exec i s = .next (s.complete st key res) := by
  have hr : ∀ r : BitVec 4, roundIndexOk r = true → ∃ k, roundIndex r = some k := by
    intro r hr
    have : r.toNat < 10 := by simp [roundIndexOk] at hr; omega
    exact ⟨⟨r.toNat, this⟩, by simp [roundIndex, this]⟩
  cases i with
  | rcon r =>
    obtain ⟨k, hk⟩ := hr r h
    exact ⟨_, _, _, by simp [exec, execRcon, withRoundIndex, hk]; rfl⟩
  | keynext r =>
    obtain ⟨k, hk⟩ := hr r h
    exact ⟨_, _, _, by simp [exec, execKeynext, withRoundIndex, hk]; rfl⟩
  | keyprev r =>
    obtain ⟨k, hk⟩ := hr r h
    exact ⟨_, _, _, by simp [exec, execKeyprev, withRoundIndex, hk]; rfl⟩
  | encrypt n m =>
    have hn : roundCountOk n = true := h
    exact ⟨_, _, _, by simp [exec, execEncrypt, withRoundCount, roundCount, hn]; rfl⟩
  | _ => exact ⟨_, _, _, rfl⟩

/-- What exec answers: a completion, or the refusal of an ill-formed term. -/
theorem exec_cases (i : Instr) (s : State) :
    (i.wf = true ∧ ∃ st key res, exec i s = .next (s.complete st key res)) ∨
    (i.wf = false ∧ exec i s = .refused .illFormedCommand) := by
  cases h : i.wf with
  | true => exact .inl ⟨rfl, exec_wf i s h⟩
  | false =>
    have hr : ∀ r : BitVec 4, roundIndexOk r = false → roundIndex r = none := by
      intro r hr
      have : ¬ r.toNat < 10 := by simp [roundIndexOk] at hr; omega
      simp [roundIndex, this]
    refine .inr ⟨rfl, ?_⟩
    cases i with
    | rcon r => simp [exec, execRcon, withRoundIndex, hr r h]
    | keynext r => simp [exec, execKeynext, withRoundIndex, hr r h]
    | keyprev r => simp [exec, execKeyprev, withRoundIndex, hr r h]
    | encrypt n m =>
      have hn : roundCountOk n = false := h
      simp [exec, execEncrypt, withRoundCount, roundCount, hn]
    | _ => simp [Instr.wf] at h

/-- The engine's turn: a completion of the pending command, nothing, or the refusal of an illegal PCMD (R36). -/
theorem engineTurn_cases (s : State) :
    (s.busy = false ∧ engineTurn s = .next s) ∨
    (s.busy = true ∧ ∃ i st key res, decode s.pcmd = .ok i ∧ engineTurn s = exec i s ∧
      exec i s = .next (s.complete st key res)) ∨
    (s.busy = true ∧ (∃ why, decode s.pcmd = .error why) ∧ engineTurn s = .refused .pendingNotLegal) := by
  unfold engineTurn
  cases hb : s.busy with
  | false => simp
  | true =>
    cases hd : decode s.pcmd with
    | error why => simp
    | ok i =>
      obtain ⟨st, key, res, h⟩ := exec_wf i s (decode_ok_wf hd)
      simp [h]

/-- What a bus read can do (20_memory.md R54-R58, 60_exceptions.md R207). -/
theorem busRead_cases (t addr : Nat) (width : Width) (s : State) :
    (classify addr width = .malformed ∧ busRead t addr width s = .fault (.busError addr)) ∨
    (∃ v, busRead t addr width s = .next (s.takeAnswer t v)) := by
  unfold busRead
  cases classify addr width <;> simp

/-- What a bus write can do (20_memory.md R54-R56, R59, 60_exceptions.md R207). -/
theorem busWrite_cases (addr : Nat) (width : Width) (v : Word) (s : State) :
    (classify addr width = .malformed ∧ busWrite addr width v s = .fault (.busError addr)) ∨
    (classify addr width = .outside ∧ busWrite addr width v s = .next s) ∨
    (∃ r, classify addr width = .served r ∧ busWrite addr width v s = .next (hostWrite r v s)) := by
  unfold busWrite
  cases classify addr width <;> simp

/-- The host's turn, as what it leaves: the block untouched and only the host moved, an answer taken in, a register write, a
fault or a refusal (30_encoding.md R83). -/
theorem hostTurn_cases (s : State) :
    (∃ h : HostState, h.vars = s.host.vars ∧ hostTurn s = .next { s with host := h }) ∨
    (∃ t v, hostTurn s = .next (s.hostNext.takeAnswer t v)) ∨
    (∃ r v, (s.hostStmt = some (.wr r v) ∨
        ∃ addr, s.hostStmt = some (.memWrite addr .w32 v) ∧ classify addr .w32 = .served r) ∧
      hostTurn s = .next (hostWrite r v s.hostNext)) ∨
    (∃ addr width, classify addr width = .malformed ∧
      ((∃ t, s.hostStmt = some (.memRead t addr width)) ∨ ∃ v, s.hostStmt = some (.memWrite addr width v)) ∧
      hostTurn s = .fault (.busError addr)) ∨
    (∃ l, (s.hostStmt = some (.bnz l) ∨ s.hostStmt = some (.bz l)) ∧ findLabel s.host.program l 0 = none ∧
      hostTurn s = .refused (.undefinedLabel l)) := by
  unfold hostTurn
  cases hs : s.hostStmt with
  | none => exact .inl ⟨s.host, rfl, rfl⟩
  | some st =>
    have hjump : ∀ l, (st = .bnz l ∨ st = .bz l) → hostExec st s = hostJump l s →
        (∃ h : HostState, h.vars = s.host.vars ∧ hostExec st s = .next { s with host := h }) ∨
        (∃ l, (st = .bnz l ∨ st = .bz l) ∧ findLabel s.host.program l 0 = none ∧
          hostExec st s = .refused (.undefinedLabel l)) := by
      intro l hl h
      rw [h]
      unfold hostJump
      cases hf : findLabel s.host.program l 0 with
      | none => exact .inr ⟨l, hl, hf, rfl⟩
      | some pos => exact .inl ⟨{ s.host with pc := pos }, rfl, rfl⟩
    cases st with
    | label l => exact .inl ⟨s.hostNext.host, rfl, rfl⟩
    | wr r v => exact .inr (.inr (.inl ⟨r, v, .inl rfl, by simp [hostExec]⟩))
    | rd t r => exact .inr (.inl ⟨t, hostRead r s.hostNext, by simp [hostExec]⟩)
    | tst t m =>
      exact .inl ⟨{ s.hostNext.host with z := readVar s.host.vars t &&& m == 0 }, rfl, rfl⟩
    | halt => exact .inl ⟨{ s.host with halted := true }, rfl, rfl⟩
    | bnz l =>
      cases hz : s.host.z with
      | true => exact .inl ⟨s.hostNext.host, rfl, by simp [hostExec, hz, State.hostNext]⟩
      | false =>
        rcases hjump l (.inl rfl) (by simp [hostExec, hz]) with h | ⟨l', h1, h2, h3⟩
        · exact .inl h
        · exact .inr (.inr (.inr (.inr ⟨l', by simpa using h1, h2, h3⟩)))
    | bz l =>
      cases hz : s.host.z with
      | false => exact .inl ⟨s.hostNext.host, rfl, by simp [hostExec, hz, State.hostNext]⟩
      | true =>
        rcases hjump l (.inr rfl) (by simp [hostExec, hz]) with h | ⟨l', h1, h2, h3⟩
        · exact .inl h
        · exact .inr (.inr (.inr (.inr ⟨l', by simpa using h1, h2, h3⟩)))
    | memRead t addr width =>
      rcases busRead_cases t addr width s.hostNext with ⟨hc, h⟩ | ⟨v, h⟩
      · exact .inr (.inr (.inr (.inl ⟨addr, width, hc, .inl ⟨t, rfl⟩, h⟩)))
      · exact .inr (.inl ⟨t, v, h⟩)
    | memWrite addr width v =>
      rcases busWrite_cases addr width v s.hostNext with ⟨hc, h⟩ | ⟨_, h⟩ | ⟨r, hc, h⟩
      · exact .inr (.inr (.inr (.inl ⟨addr, width, hc, .inr ⟨v, rfl⟩, h⟩)))
      · exact .inl ⟨s.hostNext.host, rfl, h⟩
      · obtain ⟨rfl, -⟩ := classify_served hc
        exact .inr (.inr (.inl ⟨r, v, .inr ⟨addr, rfl, hc⟩, h⟩))

/-- A step is the turn of the agent that moves next (00_scope.md R4). -/
theorem step_of_turn (s : State) :
    (s.nextTurn = .engine ∧ step s = engineTurn s.takeTurn) ∨
    (s.nextTurn = .host ∧ step s = hostTurn s.takeTurn) ∨
    (s.nextTurn = .reset ∧ step s = .next s.takeTurn.applyReset) := by
  unfold step
  cases h : s.nextTurn <;> simp [runTurn]

/-- On the host's turn the step is its next statement (30_encoding.md R83). -/
theorem step_host {s : State} {st : HostStmt} (h : s.nextTurn = .host) (hs : s.hostStmt = some st) :
    step s = hostExec st s.takeTurn := by
  unfold step
  rw [h]
  unfold runTurn hostTurn
  rw [takeTurn_hostStmt, hs]

/-- On the host's turn a served write is HostWrite on the block (20_memory.md R59, 30_encoding.md R83). -/
theorem step_writesNow {s : State} {r : Reg} {v : Word} (h : s.writesNow r v) :
    step s = .next (hostWrite r v s.takeTurn.hostNext) := by
  obtain ⟨ht, hs | ⟨addr, hs, hc⟩⟩ := h
  · rw [step_host ht hs, hostExec, busWrite_regAddr]
  · simp [step_host ht hs, hostExec, busWrite, hc]

/-- The label of a jump is the first one of the program (30_encoding.md R83, log 10). -/
theorem findLabel_eq_some_iff (program : List HostStmt) (l base pos : Nat) :
    findLabel program l base = some pos ↔
      ∃ k, pos = base + k ∧ program[k]? = some (.label l) ∧ ∀ q, q < k → program[q]? ≠ some (.label l) := by
  induction program generalizing base with
  | nil => simp [findLabel]
  | cons st rest ih =>
    unfold findLabel
    split
    · rename_i h
      subst h
      constructor
      · rintro ⟨⟩
        exact ⟨0, rfl, rfl, by omega⟩
      · rintro ⟨k, rfl, -, h⟩
        cases k with
        | zero => rfl
        | succ k => exact absurd rfl (h 0 (by omega))
    · rename_i hst
      rw [ih]
      constructor
      · rintro ⟨k, rfl, hk, h⟩
        refine ⟨k + 1, by omega, hk, fun q hq => ?_⟩
        cases q with
        | zero => simpa using hst
        | succ q => exact h q (by omega)
      · rintro ⟨k, rfl, hk, h⟩
        cases k with
        | zero => exact absurd (by simpa using hk) hst
        | succ k => exact ⟨k, by omega, hk, fun q hq => h (q + 1) (by omega)⟩

/-- No label is found exactly when the program defines none. -/
theorem findLabel_eq_none_iff (program : List HostStmt) (l base : Nat) :
    findLabel program l base = none ↔ ∀ q : Nat, program[q]? ≠ some (.label l) := by
  induction program generalizing base with
  | nil => simp [findLabel]
  | cons st rest ih =>
    unfold findLabel
    split
    · rename_i h
      exact ⟨fun hn => (nomatch hn), fun hq => absurd (by simp [h]) (hq 0)⟩
    · rename_i hst
      rw [ih]
      constructor
      · rintro h (_ | q)
        · simpa using hst
        · exact h q
      · exact fun h q => h (q + 1)

/-- On the engine's turn the step is the completion of the pending command (10_state.md R36). -/
theorem step_engine {s : State} {i : Instr} (h : s.nextTurn = .engine) (hb : s.busy = true)
    (hd : decode s.pcmd = .ok i) : step s = exec i s.takeTurn := by
  unfold step
  rw [h]
  simp [runTurn, engineTurn, hb, hd]

/-- A run is a step and then the rest of the run. -/
theorem run_succ (k : Nat) (s : State) :
    Sys2Proof.core.run (k + 1) s =
      match step s with
      | .next s' => Sys2Proof.core.run k s'
      | .fault f => .fault f
      | .refused r => .refused r := by
  have hstep : Sys2Proof.core.step s = step s := rfl
  cases h : step s <;> (simp only [Host.Core.run]; rw [hstep.trans h])

@[simp] theorem run_zero (s : State) : Sys2Proof.core.run 0 s = .next s := rfl

end Sys2Proof.Machine
end

