-- ==== Sys2Proof/Laws/HostPrograms.lean ====
section
/-! SUPPORT. What the latency premise counts (00_scope.md R5, 70_reset_and_hazards.md R246), the fresh label of POLL
(30_encoding.md R84), and what the attack procedure answers (43_block_driver.md R172). -/

namespace Sys2Proof.Machine

/-- Nothing is counted while no command is pending. -/
@[simp] theorem accessesWhilePending_idle (n : Nat) (s : State) (h : s.busy = false) : accessesWhilePending n s = 0 := by
  cases n <;> simp [accessesWhilePending, h]

/-- Nothing is counted once the engine completes or reset aborts the command. -/
theorem accessesWhilePending_over (n : Nat) (s : State) (h : s.nextTurn ≠ .host) : accessesWhilePending n s = 0 := by
  cases n with
  | zero => rfl
  | succ n =>
    unfold accessesWhilePending
    cases ht : s.nextTurn <;> simp_all

/-- A host turn counts exactly when its statement is a served access. -/
theorem accessesWhilePending_host (n : Nat) (s t : State) (hb : s.busy = true) (h : s.nextTurn = .host)
    (hs : step s = .next t) :
    accessesWhilePending (n + 1) s =
      (if s.hostStmt.any HostStmt.isServedAccess then 1 else 0) + accessesWhilePending n t := by
  rw [accessesWhilePending]
  simp only [hb, if_true, h, hs]

/-- There are no more accesses than steps. -/
theorem accessesWhilePending_le (n : Nat) (s : State) : accessesWhilePending n s ≤ n := by
  induction n generalizing s with
  | zero => exact Nat.le_refl 0
  | succ n ih =>
    by_cases ht : s.nextTurn = .host
    · cases hb : s.busy with
      | false => simp [hb]
      | true =>
        cases hs : step s with
        | next t =>
          rw [accessesWhilePending_host n s t hb ht hs]
          have := ih t
          split <;> omega
        | fault f => simp [accessesWhilePending, hb, ht, hs]
        | refused r => simp [accessesWhilePending, hb, ht, hs]
    · simp [accessesWhilePending_over _ s ht]

/-- The premise holds of a state with no command pending. -/
theorem withinLatency_idle (s : State) (h : s.busy = false) : s.withinLatency := by
  simp [State.withinLatency, h]

/-- Every label of a program is below its fresh one. -/
theorem labelBound_le_freshLabel {program : List HostStmt} {st : HostStmt} (h : st ∈ program) :
    st.labelBound ≤ freshLabel program := by
  induction program with
  | nil => simp at h
  | cons a rest ih =>
    rcases List.mem_cons.mp h with rfl | h
    · exact Nat.le_max_left _ _
    · exact Nat.le_trans (ih h) (Nat.le_max_right _ _)

/-- The program does not define its fresh label, so a `POLL` with it finds its own (30_encoding.md R84, log 21). -/
theorem findLabel_freshLabel (program : List HostStmt) (base : Nat) :
    findLabel program (freshLabel program) base = none := by
  rw [findLabel_eq_none_iff]
  intro q h
  have := labelBound_le_freshLabel (List.mem_of_getElem? h)
  simp [HostStmt.labelBound] at this

/-- Nor does it branch to it. -/
theorem freshLabel_not_branched (program : List HostStmt) :
    .bnz (freshLabel program) ∉ program ∧ .bz (freshLabel program) ∉ program := by
  constructor <;> intro h <;> simpa [HostStmt.labelBound] using labelBound_le_freshLabel h

/-- A guess survives an attempt exactly when it is a candidate of all three trials (R172). -/
theorem mem_survivors (trials : Vector (List Block) 3) (j : Nat) (g : Byte) :
    g ∈ survivors trials j ↔
      g ∈ candidates trials[0] j ∧ g ∈ candidates trials[1] j ∧ g ∈ candidates trials[2] j := by
  simp [survivors]

/-- A byte found before is kept (R172). -/
theorem fillSlots_of_some (trials : Vector (List Block) 3) (slots : KeySlots) (j : Fin 16) (g : Byte)
    (h : slots[j] = some g) : (fillSlots trials slots)[j] = some g := by
  simp only [fillSlots, Fin.getElem_fin, Vector.getElem_ofFn] at h ⊢
  rw [h]

/-- An inconclusive byte is taken from the attempt's three trials (R172). -/
theorem fillSlots_of_none (trials : Vector (List Block) 3) (slots : KeySlots) (j : Fin 16)
    (h : slots[j] = none) : (fillSlots trials slots)[j] = recoveredByte trials j.val := by
  simp only [fillSlots, Fin.getElem_fin, Vector.getElem_ofFn] at h ⊢
  rw [h]

end Sys2Proof.Machine
end

