-- ==== Sys2Proof/Laws/PerInstr.lean ====
section
/-! SUPPORT. Facts about every command as syntax, one lemma per constructor (LAWS.json). -/

namespace Sys2Proof.Laws.EncodedFields

/-- The command's word carries its opcode, and its reserved bits and unused fields are 0 (30_encoding.md R75-R77). -/
def Statement (i : Instr) : Prop :=
  opField (encode i) = i.opcode ∧ lowReserved (encode i) = 0 ∧ highReserved (encode i) = 0 ∧
    encode i &&& unusedMask i.opcode = 0

theorem nop : Statement .nop := by unfold Statement; decide

theorem xtime (x : Byte) : Statement (.xtime x) := by revert x; unfold Statement; decide

theorem sbox (x : Byte) : Statement (.sbox x) := by revert x; unfold Statement; decide

theorem isbox (y : Byte) : Statement (.isbox y) := by revert y; unfold Statement; decide

theorem rcon (r : BitVec 4) : Statement (.rcon r) := by revert r; unfold Statement; decide

theorem subshift : Statement .subshift := by unfold Statement; decide

theorem mixcol : Statement .mixcol := by unfold Statement; decide

theorem addkey : Statement .addkey := by unfold Statement; decide

theorem round (nomix : Bool) : Statement (.round nomix) := by revert nomix; unfold Statement; decide

theorem keynext (r : BitVec 4) : Statement (.keynext r) := by revert r; unfold Statement; decide

theorem keyprev (r : BitVec 4) : Statement (.keyprev r) := by revert r; unfold Statement; decide

theorem encrypt (n : BitVec 4) (nomix : Bool) : Statement (.encrypt n nomix) := by
  revert n nomix; unfold Statement; decide

end Sys2Proof.Laws.EncodedFields
end

