-- ==== Sys2Proof/Tests/Slice0.lean ====
section
/-! SUPPORT. The model's own tests. Expected values come from the spec: 95_test_vectors.md (its row is named at each test), the
examples of the rules, or a hand calculation from them. After them, a witness for every statement that has hypotheses. -/

namespace Sys2Proof.Tests

open Sys2Proof.Machine

/-! ### Ill-formed terms are refused by the check, one for each bound (30_encoding.md R73) -/

theorem test_wf_rcon_10 : (Instr.rcon 10).wf = false := by decide
theorem test_wf_keynext_15 : (Instr.keynext 15).wf = false := by decide
theorem test_wf_keyprev_10 : (Instr.keyprev 10).wf = false := by decide
theorem test_wf_encrypt_0 : (Instr.encrypt 0 true).wf = false := by decide
theorem test_wf_encrypt_11 : (Instr.encrypt 11 false).wf = false := by decide
theorem test_wf_bounds : (Instr.rcon 9).wf ∧ (Instr.encrypt 1 true).wf ∧ (Instr.encrypt 10 true).wf := by decide

/-! ### Words written out from the patterns of 30_encoding.md R77 decode to their commands -/

theorem test_decode_nop : decode 0b00000000000000000000000000000000 = .ok .nop := by decide
theorem test_decode_xtime : decode 0b00000000000000001000000100000001 = .ok (.xtime 0x81) := by decide
theorem test_decode_sbox : decode 0b00000000000000000101001100000010 = .ok (.sbox 0x53) := by decide
theorem test_decode_isbox : decode 0b00000000000000001110110100000011 = .ok (.isbox 0xED) := by decide
theorem test_decode_rcon : decode 0b00000000000010000000000000000100 = .ok (.rcon 8) := by decide
theorem test_decode_subshift : decode 0b00000000000000000000000000000101 = .ok .subshift := by decide
theorem test_decode_mixcol : decode 0b00000000000000000000000000000110 = .ok .mixcol := by decide
theorem test_decode_addkey : decode 0b00000000000000000000000000000111 = .ok .addkey := by decide
theorem test_decode_round : decode 0b00000000000100000000000000001000 = .ok (.round true) := by decide
theorem test_decode_keynext : decode 0b00000000000010010000000000001001 = .ok (.keynext 9) := by decide
theorem test_decode_keyprev : decode 0b00000000000000010000000000001010 = .ok (.keyprev 1) := by decide
theorem test_decode_encrypt : decode 0b00000000000110100000000000001011 = .ok (.encrypt 10 true) := by decide

/-- Rejections of V-30, one of each kind and each corner of the priority (60_exceptions.md R208). -/
theorem test_decode_rejects :
    decode 0x0000000C = .error .op ∧ decode 0xFFFFFFFF = .error .op ∧ decode 0x00015701 = .error .rsvd ∧
    decode 0x80000005 = .error .rsvd ∧ decode 0x00000015 = .error .rsvd ∧ decode 0x00010008 = .error .rsvd ∧
    decode 0x001A0009 = .error .rsvd ∧ decode 0x000A0009 = .error .round ∧ decode 0x0000000B = .error .round ∧
    decode 0x000B000B = .error .round := by decide

theorem test_decode_table_word : decodeTableWord 32 0x0014000B = some (.encrypt 4 true) ∧
    decodeTableWord 32 0xB = none := by decide

/-- R77: no two rows of the opcode map share a word; rows differ in OP. -/
theorem test_rows_differ_in_opcode :
    (opTable.map fun row => (row.pattern &&& 0xF).toNat) = [0, 1, 2, 3, 4, 5, 6, 7, 8, 9, 10, 11] ∧
    opTable.all (fun row => row.mask &&& 0xF == 0xF) := by decide

/-! ### Pure functions -/

/-- The known-answer plaintext and key (95_test_vectors.md V-L1-1). -/
def kaPlain : Block :=
  #v[0x32, 0x43, 0xf6, 0xa8, 0x88, 0x5a, 0x30, 0x8d, 0x31, 0x31, 0x98, 0xa2, 0xe0, 0x37, 0x07, 0x34]

def kaKey : Block :=
  #v[0x2b, 0x7e, 0x15, 0x16, 0x28, 0xae, 0xd2, 0xa6, 0xab, 0xf7, 0x15, 0x88, 0x09, 0xcf, 0x4f, 0x3c]

/-- key[1] of V-L1-1. -/
def kaKey1 : Block :=
  #v[0xa0, 0xfa, 0xfe, 0x17, 0x88, 0x54, 0x2c, 0xb1, 0x23, 0xa3, 0x39, 0x39, 0x2a, 0x6c, 0x76, 0x05]

/-- The state after whitening of V-L1-1. -/
def kaWhite : Block :=
  #v[0x19, 0x3d, 0xe3, 0xbe, 0xa0, 0xf4, 0xe2, 0x2b, 0x9a, 0xc6, 0x8d, 0x2a, 0xe9, 0xf8, 0x48, 0x08]

/-- V-40-1, V-40-2. -/
theorem test_xtime : [0x57, 0x80, 0x8d, 0xff, 0xc1].map xtime = [0xae, 0x1b, 0x01, 0xe5, 0x99] := by decide

/-- V-40-3, V-40-4. -/
theorem test_sboxes : [0x00, 0x53, 0xff, 0x52, 0x8d].map romS = [0x63, 0xed, 0x16, 0x00, 0x5d] ∧
    [0x00, 0x63, 0xff, 0x8d, 0xc9].map romSinv = [0x52, 0x00, 0x7d, 0xb4, 0x12] := by decide

/-- V-40-5. -/
theorem test_rcon_table : (List.finRange 10).map romRcon =
    [0x01, 0x02, 0x04, 0x08, 0x10, 0x20, 0x40, 0x80, 0x1b, 0x36] := by decide

/-- V-41-1. -/
theorem test_subShift : subShift kaWhite =
    #v[0xd4, 0xbf, 0x5d, 0x30, 0xe0, 0xb4, 0x52, 0xae, 0xb8, 0x41, 0x11, 0xf1, 0x1e, 0x27, 0x98, 0xe5] := by decide

/-- V-41-5, V-41-7: four columns at once. -/
theorem test_mixColumns : mixColumns
    #v[0xdb, 0x13, 0x53, 0x45, 0xf2, 0x0a, 0x22, 0x5c, 0x2d, 0x26, 0x31, 0x4c, 0x80, 0x00, 0x00, 0x00] =
    #v[0x8e, 0x4d, 0xa1, 0xbc, 0x9f, 0xdc, 0x58, 0x9d, 0x4d, 0x7e, 0xbd, 0xf8, 0x1b, 0x80, 0x80, 0x9b] := by decide

/-- V-42-1. -/
theorem test_keyNext : keyNext kaKey 0 = kaKey1 := by decide

/-- V-42-12: a mismatched index gives another legal key. -/
theorem test_keyPrev_mismatch : keyPrev kaKey1 3 =
    #v[0x22, 0x7e, 0x15, 0x16, 0x28, 0xae, 0xd2, 0xa6, 0xab, 0xf7, 0x15, 0x88, 0x09, 0xcf, 0x4f, 0x3c] := by decide

/-- V-43-1, V-L1-1: the known-answer ciphertext. -/
theorem test_encrypt_known_answer : encryptBlock kaPlain kaKey 10 true =
    #v[0x39, 0x25, 0x84, 0x1d, 0x02, 0xdc, 0x09, 0xfb, 0xdc, 0x11, 0x85, 0x97, 0x19, 0x6a, 0x0b, 0x32] := by
  decide +kernel

/-! ### One step on a small state -/

/-- A state that holds the given data and a pending command word. -/
def pending (w : Word) (st key : Block) : State :=
  { State.reset with stateReg := st, keyReg := key, result := 0x77, busy := true, pcmd := w }

/-- A pending command whose host reads STATUS and then halts. -/
def pendingRead : State :=
  { pending 0 (Vector.replicate 16 0) (Vector.replicate 16 0) with
    host := { HostState.idle with program := [.rd 0 .status, .halt] } }

/-- What a step leaves in STATE, KEY, RESULT, BUSY and ERR. -/
def dataOf (o : Host.Outcome State Fault Refusal) : Option (Block × Block × Byte × Bool × BitVec 4) :=
  match o with
  | .next t => some (t.stateReg, t.keyReg, t.result, t.busy, t.err)
  | _ => none

/-- V-44-1, R180. -/
theorem test_step_nop : dataOf (step (pending 0x00000000 kaPlain kaKey)) = some (kaPlain, kaKey, 0x77, false, 0) := by decide

/-- V-40-7. -/
theorem test_step_xtime : dataOf (step (pending 0x00005701 kaPlain kaKey)) = some (kaPlain, kaKey, 0xAE, false, 0) := by decide

/-- V-40-8. -/
theorem test_step_sbox : dataOf (step (pending 0x0000FF02 kaPlain kaKey)) = some (kaPlain, kaKey, 0x16, false, 0) := by decide

/-- R110's example. -/
theorem test_step_isbox : dataOf (step (pending 0x0000ED03 kaPlain kaKey)) = some (kaPlain, kaKey, 0x53, false, 0) := by decide

/-- V-40-10. -/
theorem test_step_rcon : dataOf (step (pending 0x00080004 kaPlain kaKey)) = some (kaPlain, kaKey, 0x1B, false, 0) := by decide

/-- V-41-2. -/
theorem test_step_subshift : dataOf (step (pending 0x00000005 #v[0, 1, 2, 3, 4, 5, 6, 7, 8, 9, 10, 11, 12, 13, 14, 15] kaKey)) =
    some (#v[0x63, 0x6b, 0x67, 0x76, 0xf2, 0x01, 0xab, 0x7b, 0x30, 0xd7, 0x77, 0xc5, 0xfe, 0x7c, 0x6f, 0x2b], kaKey,
      0x77, false, 0) := by decide

/-- V-41-8. -/
theorem test_step_mixcol : dataOf (step (pending 0x00000006 #v[0, 1, 2, 3, 4, 5, 6, 7, 8, 9, 10, 11, 12, 13, 14, 15] kaKey)) =
    some (#v[0x02, 0x07, 0x00, 0x05, 0x06, 0x03, 0x04, 0x01, 0x0a, 0x0f, 0x08, 0x0d, 0x0e, 0x0b, 0x0c, 0x09], kaKey,
      0x77, false, 0) := by decide

/-- R129's example. -/
theorem test_step_addkey : dataOf (step (pending 0x00000007 kaPlain kaKey)) = some (kaWhite, kaKey, 0x77, false, 0) := by decide

/-- V-41-11. -/
theorem test_step_round : dataOf (step (pending 0x00000008 kaWhite kaKey1)) =
    some (#v[0xa4, 0x9c, 0x7f, 0xf2, 0x68, 0x9f, 0x35, 0x2b, 0x6b, 0x5b, 0xea, 0x43, 0x02, 0x6a, 0x50, 0x49], kaKey1,
      0x77, false, 0) := by decide

/-- V-41-12. -/
theorem test_step_round_nomix : dataOf (step (pending 0x00100008 kaWhite kaKey1)) =
    some (#v[0x74, 0x45, 0xa3, 0x27, 0x68, 0xe0, 0x7e, 0x1f, 0x9b, 0xe2, 0x28, 0xc8, 0x34, 0x4b, 0xee, 0xe0], kaKey1,
      0x77, false, 0) := by decide

/-- R148's example. -/
theorem test_step_keynext : dataOf (step (pending 0x00000009 kaPlain kaKey)) = some (kaPlain, kaKey1, 0x77, false, 0) := by decide

/-- V-42-9. -/
theorem test_step_keyprev : dataOf (step (pending 0x0009000A kaPlain
      #v[0xd0, 0x14, 0xf9, 0xa8, 0xc9, 0xee, 0x25, 0x89, 0xe1, 0x3f, 0x0c, 0xc8, 0xb6, 0x63, 0x0c, 0xa6])) =
    some (kaPlain, #v[0xac, 0x77, 0x66, 0xf3, 0x19, 0xfa, 0xdc, 0x21, 0x28, 0xd1, 0x29, 0x41, 0x57, 0x5c, 0x00, 0x6e],
      0x77, false, 0) := by decide

/-- V-43-4. -/
theorem test_step_encrypt : dataOf (step (pending 0x0011000B kaPlain kaKey)) =
    some (#v[0x74, 0x45, 0xa3, 0x27, 0x68, 0xe0, 0x7e, 0x1f, 0x9b, 0xe2, 0x28, 0xc8, 0x34, 0x4b, 0xee, 0xe0], kaKey,
      0x77, false, 0) := by decide

/-- V-43-8: two rounds. -/
theorem test_step_encrypt_2 : dataOf (step (pending 0x0012000B kaPlain kaKey)) =
    some (#v[0xbb, 0x19, 0x12, 0xc9, 0x3f, 0xaf, 0xea, 0xca, 0x26, 0x37, 0x52, 0x8b, 0x04, 0x87, 0x60, 0x65], kaKey,
      0x77, false, 0) := by decide +kernel

/-- A host with one statement, on the block's idle reset state but for ERR. -/
def hostWith (st : HostStmt) : State :=
  { State.reset with err := 3, host := { HostState.idle with program := [st] }, turns := [.host] }

/-- V-30, R35: the host's CMD write is accepted: ERR <- 0, BUSY <- 1. -/
theorem test_accept : dataOf (step (hostWith (.wr .cmd 0x001A000B))) =
    some (Vector.replicate 16 0, Vector.replicate 16 0, 0, true, 0) := by
  rw [step_writesNow ⟨rfl, .inl rfl⟩]; decide

/-- V-60-5: a rejection overwrites ERR. -/
theorem test_reject : dataOf (step (hostWith (.wr .cmd 0x0000000D))) =
    some (Vector.replicate 16 0, Vector.replicate 16 0, 0, false, 1) := by
  rw [step_writesNow ⟨rfl, .inl rfl⟩]; decide

/-- V-20-1: byte order of a STATE word. -/
theorem test_write_state : dataOf (step (hostWith (.wr (.stateW 1) 0x3243F6A8))) =
    some (#v[0, 0, 0, 0, 0x32, 0x43, 0xf6, 0xa8, 0, 0, 0, 0, 0, 0, 0, 0], Vector.replicate 16 0, 0, false, 3) := by
  rw [step_writesNow ⟨rfl, .inl rfl⟩]; decide

/-- V-20-2: byte order of a KEY word, read back. -/
theorem test_key_word : hostRead (.keyW 3) (hostWrite (.keyW 3) 0x09CF4F3C State.reset) = 0x09CF4F3C ∧
    byteAt (hostWrite (.keyW 3) 0x09CF4F3C State.reset).keyReg 12 = 0x09 := by decide

/-- V-20-9, V-20-10: STATUS is exact while busy, ERR and BUSY are not writable. -/
theorem test_status : statusWord { State.reset with err := 3 } = 0x00000030 ∧
    statusWord { State.reset with busy := true, ovr := true } = 0x00000003 ∧
    hostWrite .status 0xFFFFFFFF { State.reset with err := 3, busy := true, ovr := true } =
      { State.reset with err := 3, busy := true } := by decide

/-- V-20-11, V-60-2: writes while busy are dropped. -/
theorem test_dropped : hostWrite (.keyW 0) 0x12345678 (pending 0 kaPlain kaKey) =
      { pending 0 kaPlain kaKey with ovr := true } ∧
    hostWrite .cmd 0x0000000D (pending 0 kaPlain kaKey) = { pending 0 kaPlain kaKey with ovr := true } := by decide

/-- V-20-8: a misaligned write in the window is a bus error. -/
theorem test_bus_error : step (hostWith (.memWrite (Config.base + 0x12) .w32 0)) = .fault (.busError (Config.base + 0x12)) := by
  have hw : inWindow (Config.base + 0x12) = true := by rw [inWindow_iff]; omega
  rw [step_host rfl rfl]
  simp [hostExec, busWrite, classify, hw]

/-- V-20-7: an 8-bit read in the window is a bus error. -/
theorem test_bus_error_width : step (hostWith (.memRead 0 (Config.base + 0x10) .w8)) = .fault (.busError (Config.base + 0x10)) := by
  have hw : inWindow (Config.base + 0x10) = true := by rw [inWindow_iff]; omega
  rw [step_host rfl rfl]
  simp [hostExec, busRead, classify, hw]

/-- V-70-2: reset aborts a pending command; its results do not appear. -/
theorem test_reset_aborts : dataOf (step { pending 0x0011000B kaPlain kaKey with turns := [.reset] }) =
    some (Vector.replicate 16 0, Vector.replicate 16 0, 0, false, 0) := by decide

/-- R83: TST, then BNZ falls through when Z = 1; the label of a jump is found. -/
theorem test_host_branch : hostExec (.bnz 7) { hostWith (.label 7) with host.z := true } =
      .next (State.hostNext { hostWith (.label 7) with host.z := true }) ∧
    findLabel [.halt, .label 3, .label 7] 7 0 = some 2 := by
  exact ⟨by simp [hostExec], by decide⟩

/-- The command a row's word runs as the first instruction after reset (log 12). -/
theorem test_withFetchWord : dataOf (step (State.reset.withFetchWord 32 0x0000FF02)) =
    some (Vector.replicate 16 0, Vector.replicate 16 0, 0x16, false, 0) := by decide

/-- R5, R246: while a command is pending a label and a TST are host turns but no accesses, a register read is one, and what
comes after a listed reset is not counted. -/
theorem test_latency_counts_accesses :
    accessesWhilePending 3 { pending 0 kaPlain kaKey with
      host := { HostState.idle with program := [.label 0, .tst 0 1, .rd 0 .status] }, turns := [.host, .host, .engine] } = 0 ∧
    accessesWhilePending 3 { pendingRead with turns := [.host, .host, .engine] } = 1 ∧
    accessesWhilePending 2 { pendingRead with turns := [.reset, .host] } = 0 := by
  refine ⟨by decide, ?_, by decide⟩
  rw [accessesWhilePending_host 2 _ _ rfl rfl (by rw [step_host rfl rfl, hostExec, busRead_regAddr])]
  decide

/-- R172: an inconclusive byte is taken from the next attempt, a byte found before is kept. -/
theorem test_attack_retries : fillSlots (Vector.replicate 3 []) (Vector.replicate 16 none) = Vector.replicate 16 none ∧
    fillSlots (Vector.replicate 3 []) (Vector.replicate 16 (some 7)) = Vector.replicate 16 (some 7) := by
  decide +kernel

/-- R82: examples of the assembler, and an operand out of range refused. -/
theorem test_assemble : (Asm.encrypt 10 (some 1)).assemble = some 0x001A000B ∧ (Asm.keyprev 9).assemble = some 0x0009000A ∧
    (Asm.round none).assemble = some 0x00000008 ∧ (Asm.keynext 10).assemble = none ∧ (Asm.xtime 256).assemble = none := by
  decide

/-! ### Witnesses: for each statement with hypotheses, values that meet them together, one for each clause at its bounds -/

theorem witness_DecodeOfEncodeIsTheCommand : (Instr.encrypt 10 true).wf = true ∧ (Instr.rcon 9).wf = true := by decide

theorem witness_EncodeOfDecodeIsTheWord : decode 0x001A000B = .ok (.encrypt 10 true) := by decide

theorem witness_WordLegalIffOneOpcodeRow : decode 0x0009000A = .ok (.keyprev 9) ∧
    ∃ a ∈ opTable, a.fits 0x0009000A = true := by decide

/-- One word for each of the six clauses, at the bounds of its fields. -/
theorem witness_DecodeChecksInOrder :
    ((0x0000000C &&& 0xF : Word).toNat ≥ 0xC) ∧
    ((0x0020001B &&& 0xF : Word).toNat < 0xC ∧ (0x0020001B : Word) &&& 0xFFE000F0 ≠ 0) ∧
    ((0x0010000A &&& 0xF : Word).toNat < 0xC ∧ (0x0010000A : Word) &&& 0xFFE000F0 = 0 ∧
      (0x0010000A : Word) &&& unusedMask 10 ≠ 0) ∧
    ((0x000A0004 : Word) &&& 0xFFE000F0 = 0 ∧ (0x000A0004 : Word) &&& unusedMask 4 = 0 ∧
      (((0x000A0004 : Word) >>> 16) &&& 0xF).toNat > 9) ∧
    ((0x000B000B : Word) &&& 0xFFE000F0 = 0 ∧ (0x000B000B : Word) &&& unusedMask 11 = 0 ∧
      (((0x000B000B : Word) >>> 16) &&& 0xF).toNat > 10 ∧ (((0x0000000B : Word) >>> 16) &&& 0xF).toNat = 0) ∧
    ((0x000A000B : Word) &&& 0xFFE000F0 = 0 ∧ (0x000A000B : Word) &&& unusedMask 11 = 0 ∧
      (((0x000A000B : Word) >>> 16) &&& 0xF).toNat = 10 ∧ (((0x0001000B : Word) >>> 16) &&& 0xF).toNat = 1) := by decide

/-- The bounds of every clause, on both sides. -/
theorem witness_AssemblerRefusesOutOfRange : (0 ≤ 255 ∧ 255 ≤ 255) ∧ (0 ≤ 9 ∧ 9 ≤ 9) ∧ (1 ≤ 1 ∧ 1 ≤ 10) ∧
    (1 ≤ 10 ∧ 10 ≤ 10) ∧ 256 ≤ 256 ∧ 10 ≤ 10 ∧ (0 = 0 ∨ 11 ≤ 0) ∧ (11 = 0 ∨ 11 ≤ 11) ∧ 2 ≤ 2 ∧
    (Asm.xtime 255).assemble = some 0x0000FF01 := by decide

theorem witness_XtimeIsLinearBijection : (0x7F : Byte).toNat < 0x80 ∧ (0x80 : Byte).toNat ≥ 0x80 := by decide

theorem witness_SboxIsAffineOfFieldInverse : (0x01 : Byte) ≠ 0 := by decide

theorem witness_MixColumnsIsLinear : ∀ j : Fin 4,
    byteAt #v[9, 9, 9, 9, 1, 2, 3, 4, 5, 6, 7, 8, 0, 0, 0, 0] (4 * 0 + j.val) =
      byteAt #v[9, 9, 9, 9, 1, 2, 3, 4, 5, 6, 7, 8, 0, 0, 0, 0] (4 * 0) := by decide

/-- Blocks that differ in byte 15 alone: the hypotheses of the three clauses hold at byte 0, at row 3 of column 2, and in
column 0. -/
theorem witness_RoundStepsKeepLanes : kaPlain ≠ kaPlain.set 15 0 ∧ byteAt kaPlain 0 = byteAt (kaPlain.set 15 0) 0 ∧
    byteAt kaKey 0 = byteAt (kaKey.set 15 0) 0 ∧
    matrixAt kaPlain 3 ((2 + 3) % 4) = matrixAt (kaPlain.set 15 0) 3 ((2 + 3) % 4) ∧
    ∀ r : Fin 4, matrixAt kaPlain r 0 = matrixAt (kaPlain.set 15 0) r 0 := by decide

theorem witness_FourKeyprevsRecoverMasterKey :
    ({ State.reset with keyReg := keyChain kaKey 4 } : State).keyReg = keyChain kaKey 4 := rfl

theorem witness_EncryptionAddsARound : (1 ≤ 1 ∧ 1 ≤ 9) ∧ (1 ≤ 9 ∧ 9 ≤ 9) := by decide

theorem witness_EncryptionIsBijective : (1 ≤ 1 ∧ 1 ≤ 10) ∧ (1 ≤ 10 ∧ 10 ≤ 10) := by decide

theorem witness_StepCommandsEqualEncrypt : (1 ≤ 1 ∧ 1 ≤ 10) ∧ (1 ≤ 10 ∧ 10 ≤ 10) := by decide

theorem witness_EncryptWritesStateKeepsKey : (1 ≤ 1 ∧ 1 ≤ 10) ∧ (1 ≤ 10 ∧ 10 ≤ 10) := by decide

theorem witness_StepRunsThePendingCommand : (pending 0x0011000B kaPlain kaKey).nextTurn = .engine ∧
    (pending 0x0011000B kaPlain kaKey).busy = true ∧
    decode (pending 0x0011000B kaPlain kaKey).pcmd = .ok (.encrypt 1 true) := by decide

theorem witness_PresentedWordRunsNext : (Instr.keynext 0).wf = true := by decide

/-- An idle block whose host writes a word to CMD, the engine after it. -/
def presenting (v : Word) : State := { hostWith (.wr .cmd v) with turns := [.host, .engine] }

theorem witness_AcceptedCommandThenRuns : (presenting 0x00005302).busy = false ∧
    (presenting 0x00005302).turns = .host :: .engine :: [] ∧
    (presenting 0x00005302).hostStmt = some (.wr .cmd 0x00005302) ∧ decode 0x00005302 = .ok (.sbox 0x53) := by decide

/-- A pending legal command meets the invariant. -/
theorem pending_inv : (pending 0x0011000B kaPlain kaKey).Inv :=
  ⟨fun _ => ⟨.encrypt 1 true, by decide⟩, fun _ => rfl, by decide, List.Pairwise.nil⟩

theorem witness_EngineNeverFailsOnAcceptedCommand : (pending 0x0011000B kaPlain kaKey).Inv ∧
    (pending 0x0011000B kaPlain kaKey).busy = true ∧ (pending 0x0011000B kaPlain kaKey).nextTurn = .engine :=
  ⟨pending_inv, rfl, rfl⟩

theorem witness_PendingCommandCompletesInTime : (pending 0x0011000B kaPlain kaKey).Inv ∧
    (pending 0x0011000B kaPlain kaKey).busy = true := ⟨pending_inv, rfl⟩

/-- The pending command of a host that writes a register meanwhile. -/
def pendingWith (st : HostStmt) : State :=
  { pending 0x0011000B kaPlain kaKey with host := { HostState.idle with program := [st] }, turns := [.host] }

theorem witness_PendingOperandsAreStable : (pendingWith (.wr (.keyW 0) 1)).busy = true ∧
    ∃ t, step (pendingWith (.wr (.keyW 0) 1)) = .next t ∧ t.busy = true :=
  ⟨rfl, _, step_writesNow ⟨rfl, .inl rfl⟩, by decide⟩

theorem witness_CmdWriteHasOneOutcome : (pending 0 kaPlain kaKey).busy = true ∧ State.reset.busy = false ∧
    decode 0x0000000C = .error .op ∧ decode 0x00000100 = .error .rsvd ∧ decode 0x000A0004 = .error .round ∧
    decode 0x00090004 = .ok (.rcon 9) := by decide

theorem witness_RejectionChangesOnlyErr : State.reset.busy = false ∧ decode 0x0000000C = .error .op := by decide

theorem witness_BusyWritesAreDropped : (pending 0 kaPlain kaKey).busy = true := rfl

theorem witness_ServedReadsAnswer : State.reset.busy = false ∧ (pending 0 kaPlain kaKey).busy = true ∧
    (Reg.stateW 0).isData = true ∧ (Reg.keyW 3).isData = true ∧ Reg.result.isData = true := by decide

/-- Both forms of a served write on the host's turn; an idle block; a byte outside the first and outside the last word. -/
theorem witness_DataRegisterWriteReadsBack : (hostWith (.wr (.stateW 3) 7)).writesNow (.stateW 3) 7 ∧
    (hostWith (.memWrite (regAddr (.keyW 0)) .w32 7)).writesNow (.keyW 0) 7 ∧ State.reset.busy = false ∧
    (4 : Fin 16).val / 4 ≠ (0 : Fin 4).val ∧ (11 : Fin 16).val / 4 ≠ (3 : Fin 4).val :=
  ⟨⟨rfl, .inl rfl⟩, ⟨rfl, .inr ⟨_, rfl, classify_regAddr _⟩⟩, rfl, by decide, by decide⟩

/-- The first and last address of each clause: base + 64 is outside, base and base + 0x3C are served, base + 0x3F and a narrow
access of base are malformed. BASE is opaque and may be 0, so an address below it is shown where there is one. -/
theorem witness_WindowServesAlignedWordsOnly :
    (Config.base + 0x3F < Config.base + 64) ∧ (0 < Config.base → Config.base - 1 < Config.base) ∧
    (Config.base ≤ Config.base ∧ Config.base ≤ Config.base + 0x3F ∧ (Config.base - Config.base) % 4 = 0) ∧
    (Config.base ≤ Config.base + 0x3C ∧ Config.base + 0x3C ≤ Config.base + 0x3F ∧
      (Config.base + 0x3C - Config.base) % 4 = 0) ∧
    ¬ (Width.w32 = .w32 ∧ (Config.base + 0x3F - Config.base) % 4 = 0) ∧
    ¬ (Width.w8 = .w32 ∧ (Config.base - Config.base) % 4 = 0) := by
  refine ⟨by omega, by omega, by omega, by omega, by omega, by decide +revert⟩

/-- Both forms of a served read on the host's turn of an idle block, and another variable. -/
theorem witness_ReadsChangeNoRegister : (hostWith (.rd 5 .result)).nextTurn = .host ∧
    (hostWith (.rd 5 .result)).hostStmt = some (.rd 5 .result) ∧ (hostWith (.rd 5 .result)).busy = false ∧ 6 ≠ 5 ∧
    ∃ addr, (hostWith (.memRead 5 (regAddr .status) .w32)).hostStmt = some (.memRead 5 addr .w32) ∧
      classify addr .w32 = .served .status :=
  ⟨rfl, rfl, rfl, by decide, _, rfl, classify_regAddr _⟩

/-- OVR rises on a dropped write, falls on a write of 1 to its bit, and on reset. -/
theorem witness_OverrunOnlyByDropClearReset :
    (∃ t, step (pendingWith (.wr .cmd 0)) = .next t ∧ (pendingWith (.wr .cmd 0)).ovr = false ∧ t.ovr = true) ∧
    (∃ t, step { pendingWith (.wr .status 2) with ovr := true } = .next t ∧ t.ovr = false) ∧
    (∃ t, step { pending 0 kaPlain kaKey with ovr := true, turns := [.reset] } = .next t ∧ t.ovr = false) :=
  ⟨⟨_, step_writesNow ⟨rfl, .inl rfl⟩, rfl, by decide⟩, ⟨_, step_writesNow ⟨rfl, .inl rfl⟩, by decide⟩, ⟨_, rfl, rfl⟩⟩

/-- ERR changes on a rejection, BUSY rises on an acceptance and falls at completion. -/
theorem witness_ErrAndBusyOnlyByLifecycle :
    (∃ t, step (hostWith (.wr .cmd 0x0000000C)) = .next t ∧ t.err ≠ (hostWith (.wr .cmd 0x0000000C)).err) ∧
    (∃ t, step (hostWith (.wr .cmd 0x00000005)) = .next t ∧ (hostWith (.wr .cmd 0x00000005)).busy = false ∧
      t.busy = true) ∧
    (∃ t, step (pending 0 kaPlain kaKey) = .next t ∧ t.busy = false) :=
  ⟨⟨_, step_writesNow ⟨rfl, .inl rfl⟩, by decide⟩, ⟨_, step_writesNow ⟨rfl, .inl rfl⟩, rfl, by decide⟩, ⟨_, rfl, rfl⟩⟩

/-- Each data register changed by a command and, for STATE and KEY, by a host write. -/
theorem witness_DataRegistersOnlyByTheirWriters :
    (∃ t, step (pending 0x00000007 kaPlain kaKey) = .next t ∧ t.stateReg ≠ kaPlain) ∧
    (∃ t, step (pending 0x00000009 kaPlain kaKey) = .next t ∧ t.keyReg ≠ kaKey) ∧
    (∃ t, step (pending 0x00005302 kaPlain kaKey) = .next t ∧ t.result ≠ 0x77) ∧
    (∃ t, step (hostWith (.wr (.stateW 0) 1)) = .next t ∧ t.stateReg ≠ State.reset.stateReg) ∧
    (∃ t, step (hostWith (.wr (.keyW 3) 1)) = .next t ∧ t.keyReg ≠ State.reset.keyReg) :=
  ⟨⟨_, rfl, by decide⟩, ⟨_, rfl, by decide⟩, ⟨_, rfl, by decide⟩, ⟨_, step_writesNow ⟨rfl, .inl rfl⟩, by decide⟩,
    ⟨_, step_writesNow ⟨rfl, .inl rfl⟩, by decide⟩⟩

/-- Two states that differ in STATE and KEY: at an engine turn, and at a host turn whose statement reads STATUS. -/
theorem witness_ControlDoesNotDependOnData :
    SameControl (pending 0x0011000B kaPlain kaKey) (pending 0x0011000B kaWhite kaKey1) ∧ kaPlain ≠ kaWhite ∧
    SameControl (pendingWith (.rd 0 .status)) { pendingWith (.rd 0 .status) with stateReg := kaWhite } ∧
    ((pendingWith (.rd 0 .status)).nextTurn = .host →
      ∀ st, (pendingWith (.rd 0 .status)).hostStmt = some st → st.readsData = false) := by
  refine ⟨⟨rfl, rfl, rfl, rfl, rfl, rfl, rfl, rfl⟩, by decide, ⟨rfl, rfl, rfl, rfl, rfl, rfl, rfl, rfl⟩, ?_⟩
  rintro - st h
  cases h
  rfl

theorem witness_ResetEventZeroesTheBlock :
    ({ pending 0x0011000B kaPlain kaKey with turns := [.reset] } : State).nextTurn = .reset := rfl

theorem witness_EveryStepKeepsTheInvariant : (pending 0x0011000B kaPlain kaKey).Inv ∧
    ∃ t, step (pending 0x0011000B kaPlain kaKey) = .next t := ⟨pending_inv, _, rfl⟩

/-- A host with a branch and the two labels it may look for. -/
def branching (st : HostStmt) (z : Bool) : State :=
  { State.reset with host := { HostState.idle with program := [st, .label 3, .label 4], z := z }, turns := [.host] }

/-- Hypotheses for each clause: TST; BNZ and BZ taken to a label and to a missing one; a label and both branches not taken;
HALT. -/
theorem witness_HostStatementsMoveOnlyTheHost :
    ((hostWith (.tst 0 1)).nextTurn = .host ∧ (hostWith (.tst 0 1)).hostStmt = some (.tst 0 1)) ∧
    ((branching (.bnz 4) false).nextTurn = .host ∧ (branching (.bnz 4) false).hostStmt = some (.bnz 4) ∧
      (branching (.bnz 4) false).host.program[2]? = some (.label 4) ∧
      ∀ q, q < 2 → (branching (.bnz 4) false).host.program[q]? ≠ some (.label 4)) ∧
    ((branching (.bz 3) true).hostStmt = some (.bz 3) ∧ (branching (.bz 3) true).host.program[1]? = some (.label 3) ∧
      ∀ q, q < 1 → (branching (.bz 3) true).host.program[q]? ≠ some (.label 3)) ∧
    ((branching (.bz 5) true).hostStmt = some (.bz 5) ∧
      ∀ q : Nat, (branching (.bz 5) true).host.program[q]? ≠ some (.label 5)) ∧
    (hostWith (.label 4)).hostStmt = some (.label 4) ∧ (branching (.bz 4) false).hostStmt = some (.bz 4) ∧
    (branching (.bnz 4) true).hostStmt = some (.bnz 4) ∧ (hostWith .halt).hostStmt = some .halt := by
  refine ⟨by decide, by decide, by decide, ⟨by decide, ?_⟩, by decide⟩
  exact (findLabel_eq_none_iff _ 5 0).mp (by decide)

/-- A host that has halted on an idle block. -/
theorem witness_EndedRunStaysAsItIs : ({ State.reset with host.halted := true } : State).Ended ∧
    ({ State.reset with host.halted := true } : State).turns = [] := ⟨⟨rfl, rfl⟩, rfl⟩

end Sys2Proof.Tests
end

section
/-! PROOF. Everything one step can do, said once as a relation (00_scope.md R4, 10_state.md R35, R36, 20_memory.md R59,
30_encoding.md R83, 70_reset_and_hazards.md R230): who moves, under which guards, and the state it leaves. -/

namespace Sys2Proof.Machine

/-- The ways in which a step from `s` goes on to a next state; `step_move` ties them to `step`. -/
inductive Move (s : State) : State → Prop where
  /-- The reset event. -/
  | reset : s.nextTurn = .reset → Move s s.takeTurn.applyReset
  /-- The engine's turn with nothing pending. -/
  | engineIdle : s.nextTurn = .engine → s.busy = false → Move s s.takeTurn
  /-- The pending command completes. -/
  | completed {i : Instr} {st key : Block} {res : Byte} : s.nextTurn = .engine → s.busy = true →
      decode s.pcmd = .ok i → exec i s.takeTurn = .next (s.takeTurn.complete st key res) →
      Move s (s.takeTurn.complete st key res)
  /-- A host turn that leaves the block and the host's variables alone. -/
  | hostOnly {h : HostState} : s.nextTurn = .host → h.vars = s.host.vars → Move s { s.takeTurn with host := h }
  /-- The host reads. -/
  | answered {u : Nat} {v : Word} : s.nextTurn = .host → Move s (s.takeTurn.hostNext.takeAnswer u v)
  /-- The host's write is dropped. -/
  | dropped {r : Reg} {v : Word} : s.writesNow r v → s.busy = true →
      (r = .cmd ∨ (∃ k, r = .stateW k) ∨ ∃ k, r = .keyW k) → Move s s.takeTurn.hostNext.overrun
  /-- The host's CMD write is rejected. -/
  | rejected {v : Word} {why : Reject} : s.writesNow .cmd v → s.busy = false → decode v = .error why →
      Move s (s.takeTurn.hostNext.reject why)
  /-- The host's CMD write is accepted. -/
  | accepted {v : Word} {i : Instr} : s.writesNow .cmd v → s.busy = false → decode v = .ok i →
      Move s (s.takeTurn.hostNext.accept v)
  /-- The host writes STATUS. -/
  | wroteStatus {v : Word} : s.writesNow .status v → Move s (s.takeTurn.hostNext.clearOverrun v)
  /-- The host writes a word of STATE. -/
  | wroteState {k : Fin 4} {v : Word} : s.writesNow (.stateW k) v → s.busy = false →
      Move s { s.takeTurn.hostNext with stateReg := setBlockWord s.stateReg k v }
  /-- The host writes a word of KEY. -/
  | wroteKey {k : Fin 4} {v : Word} : s.writesNow (.keyW k) v → s.busy = false →
      Move s { s.takeTurn.hostNext with keyReg := setBlockWord s.keyReg k v }

/-- A served write of the host is one of the moves (20_memory.md R59, 60_exceptions.md R208). -/
theorem move_of_writesNow {s : State} {r : Reg} {v : Word} (h : s.writesNow r v) :
    Move s (hostWrite r v s.takeTurn.hostNext) := by
  rcases hostWrite_cases r v s.takeTurn.hostNext with
    ⟨rfl, e⟩ | ⟨rfl, e⟩ | ⟨-, e⟩ | ⟨hr, hb, e⟩ | ⟨k, rfl, hb, e⟩ | ⟨k, rfl, hb, e⟩ <;> rw [e]
  · rcases commandWrite_cases v s.takeTurn.hostNext with ⟨hb, e⟩ | ⟨hb, why, hd, e⟩ | ⟨hb, i, hd, e⟩ <;> rw [e]
    · exact .dropped h hb (.inl rfl)
    · exact .rejected h hb hd
    · exact .accepted h hb hd
  · exact .wroteStatus h
  · exact .hostOnly (h := s.takeTurn.hostNext.host) h.1 rfl
  · exact .dropped h hb (.inr hr)
  · exact .wroteState h hb
  · exact .wroteKey h hb

/-- A step that goes on is one of the moves. -/
theorem step_move {s t : State} (h : step s = .next t) : Move s t := by
  rcases step_of_turn s with ⟨ht, e⟩ | ⟨ht, e⟩ | ⟨ht, e⟩ <;> rw [e] at h
  · rcases engineTurn_cases s.takeTurn with ⟨hb, e⟩ | ⟨hb, i, st, key, res, hd, e, hx⟩ | ⟨-, -, e⟩ <;> rw [e] at h
    · cases h
      exact .engineIdle ht hb
    · cases hx.symm.trans h
      exact .completed ht hb hd hx
    · cases h
  · rcases hostTurn_cases s.takeTurn with
      ⟨g, hg, e⟩ | ⟨u, v, e⟩ | ⟨r, v, hw, e⟩ | ⟨_, _, _, _, e⟩ | ⟨_, _, _, e⟩ <;> rw [e] at h <;> cases h
    · exact .hostOnly ht hg
    · exact .answered ht
    · exact move_of_writesNow ⟨ht, hw⟩
  · cases h
    exact .reset ht

/-- Every move takes its turn off the list (log 2). -/
theorem Move.turns {s t : State} (h : Move s t) : t.turns = s.turns.tail := by
  cases h <;> simp

/-- A move that leaves a command pending where one was is the host's. -/
theorem Move.nextTurn_of_busy {s t : State} (h : Move s t) (hs : s.busy = true) (ht : t.busy = true) :
    s.nextTurn = .host := by
  cases h with
  | reset => simp at ht
  | engineIdle _ hb => simp [hs] at hb
  | completed => simp at ht
  | hostOnly h => exact h
  | answered h => exact h
  | dropped h => exact h.1
  | rejected h => exact h.1
  | accepted h => exact h.1
  | wroteStatus h => exact h.1
  | wroteState h => exact h.1
  | wroteKey h => exact h.1

end Sys2Proof.Machine
end

section
/-! PROOF. The invariant: it holds at reset, every move keeps it, and under it a step stops only where the host does. -/

namespace Sys2Proof.Machine

/-- The codes of a rejection are legal values of ERR (10_state.md R26). -/
theorem errCode_le_three (why : Reject) : (errCode why).toNat ≤ 3 := by
  cases why <;> decide

/-- The invariant with nothing pending asks only for a legal ERR and sorted variables. -/
theorem inv_of_idle {s : State} (hb : s.busy = false) (he : s.err.toNat ≤ 3) (hv : varsSorted s.host.vars) : s.Inv :=
  ⟨by simp [hb], by simp [hb], he, hv⟩

/-- The invariant reads BUSY, PCMD, ERR and the host's variables alone. -/
theorem State.Inv.of_same {s t : State} (h : s.Inv) (hb : t.busy = s.busy) (hp : t.pcmd = s.pcmd) (he : t.err = s.err)
    (hv : Machine.varsSorted t.host.vars) : t.Inv :=
  ⟨by rw [hb, hp]; exact h.pendingLegal, by rw [hb, he]; exact h.pendingOk, by rw [he]; exact h.errLegal, hv⟩

/-- Every move keeps the invariant: a CMD write establishes it afresh, completion and reset leave an idle block, and every
other move leaves BUSY, PCMD and ERR as they were. -/
theorem Move.inv {s t : State} (h : Move s t) (hi : s.Inv) : t.Inv := by
  have hv := hi.varsSorted
  cases h with
  | reset => exact inv_of_idle rfl (by simp) hv
  | completed => exact inv_of_idle rfl hi.errLegal hv
  | rejected _ hb => exact inv_of_idle hb (errCode_le_three _) hv
  | accepted _ _ hd => exact ⟨fun _ => ⟨_, hd⟩, fun _ => rfl, by simp [errOk], hv⟩
  | engineIdle => exact hi.of_same rfl rfl rfl hv
  | hostOnly _ hg => exact hi.of_same rfl rfl rfl (by simpa [hg] using hv)
  | answered => exact hi.of_same rfl rfl rfl (writeVar_sorted _ _ _ hv)
  | dropped => exact hi.of_same rfl rfl rfl hv
  | wroteStatus => exact hi.of_same (by simp) (by simp) (by simp) (by simpa using hv)
  | wroteState => exact hi.of_same rfl rfl rfl hv
  | wroteKey => exact hi.of_same rfl rfl rfl hv

/-- Under the invariant only the host stops a run: with a bus error or at an undefined label (log 6, 10). -/
theorem step_outcome_of_inv {s : State} (hi : s.Inv) :
    (∃ t, step s = .next t) ∨ (∃ addr, step s = .fault (.busError addr)) ∨
      ∃ l, step s = .refused (.undefinedLabel l) := by
  rcases step_of_turn s with ⟨-, e⟩ | ⟨-, e⟩ | ⟨-, e⟩ <;> rw [e]
  · rcases engineTurn_cases s.takeTurn with ⟨-, e⟩ | ⟨-, _, _, _, _, -, e, hx⟩ | ⟨hb, ⟨why, hd⟩, -⟩
    · exact .inl ⟨_, e⟩
    · exact .inl ⟨_, e.trans hx⟩
    · obtain ⟨i, hok⟩ := hi.pendingLegal hb
      cases hok.symm.trans hd
  · rcases hostTurn_cases s.takeTurn with
      ⟨_, _, e⟩ | ⟨_, _, e⟩ | ⟨_, _, _, e⟩ | ⟨_, _, _, _, e⟩ | ⟨_, _, _, e⟩
    · exact .inl ⟨_, e⟩
    · exact .inl ⟨_, e⟩
    · exact .inl ⟨_, e⟩
    · exact .inr (.inl ⟨_, e⟩)
    · exact .inr (.inr ⟨_, e⟩)
  · exact .inl ⟨_, rfl⟩

/-- Settles O57: a step is one of the moves, and each keeps the invariant. -/
theorem everyStepKeepsTheInvariant : Obligations.EveryStepKeepsTheInvariant :=
  fun _ _ hi h => (step_move h).inv hi

/-- Settles O56: nothing is pending at reset. -/
theorem resetMeetsTheInvariant : Obligations.ResetMeetsTheInvariant :=
  inv_of_idle rfl (by decide) List.Pairwise.nil

end Sys2Proof.Machine
end

section
/-! PROOF. The wait for a pending command ends (10_state.md R38): only the host's turns leave it pending, and the list of
turns is finite (log 2). -/

namespace Sys2Proof.Machine

/-- A run of `n` steps ends the wait for a pending command: it is over, or the host has stopped the run. -/
def OverAfter (n : Nat) (s : State) : Prop :=
  (∃ t, Sys2Proof.core.run n s = .next t ∧ t.busy = false) ∨
    (∃ addr, Sys2Proof.core.run n s = .fault (.busError addr)) ∨
    ∃ l, Sys2Proof.core.run n s = .refused (.undefinedLabel l)

/-- A wait that ends `n` steps after the next state ends `n + 1` steps from here. -/
theorem overAfter_succ {n : Nat} {s t : State} (h : step s = .next t) (ht : OverAfter n t) : OverAfter (n + 1) s := by
  unfold OverAfter at ht ⊢
  rwa [run_succ, h]

/-- One step ends the wait or leaves the command pending. -/
theorem overAfter_one_or_pending {s : State} (hi : s.Inv) : OverAfter 1 s ∨ ∃ t, step s = .next t ∧ t.busy = true := by
  rcases step_outcome_of_inv hi with ⟨t, h⟩ | ⟨addr, h⟩ | ⟨l, h⟩
  · cases hb : t.busy with
    | false => exact .inl (overAfter_succ h (.inl ⟨t, rfl, hb⟩))
    | true => exact .inr ⟨t, h, hb⟩
  · exact .inl (.inr (.inl ⟨addr, by rw [run_succ, h]⟩))
  · exact .inl (.inr (.inr ⟨l, by rw [run_succ, h]⟩))

/-- By induction on the turns listed: a step that leaves the command pending takes a turn of the host off the list, and with
no turn listed the engine moves. -/
theorem pending_overAfter (turns : List Turn) {s : State} (hi : s.Inv) (hb : s.busy = true) (hl : s.turns = turns) :
    ∃ n, n ≤ turns.length + 1 ∧ OverAfter n s := by
  induction turns generalizing s with
  | nil =>
    rcases overAfter_one_or_pending hi with h | ⟨t, h, ht⟩
    · exact ⟨1, by simp, h⟩
    · have := (step_move h).nextTurn_of_busy hb ht
      simp [State.nextTurn, hl, hb] at this
  | cons turn rest ih =>
    rcases overAfter_one_or_pending hi with h | ⟨t, h, ht⟩
    · exact ⟨1, by simp, h⟩
    · have hm := step_move h
      obtain ⟨n, hn, ho⟩ := ih (hm.inv hi) ht (by rw [hm.turns, hl, List.tail_cons])
      exact ⟨n + 1, by simpa using hn, overAfter_succ h ho⟩

/-- Settles O39, by induction on the turns listed. -/
theorem pendingCommandCompletesInTime : Obligations.PendingCommandCompletesInTime :=
  fun s hi hb => pending_overAfter s.turns hi hb rfl

end Sys2Proof.Machine
end

section
/-! PROOF. Two runs that differ only in data make the same moves (10_state.md R32, 70_reset_and_hazards.md R246): each operation
takes states alike in control to outcomes alike. -/

namespace Sys2Proof.Machine

/-- Two outcomes alike but for data: next states of the same control, or the same stop. -/
inductive SameMove : Host.Outcome State Fault Refusal → Host.Outcome State Fault Refusal → Prop where
  | next {t t' : State} : SameControl t t' → SameMove (.next t) (.next t')
  | fault (f : Fault) : SameMove (.fault f) (.fault f)
  | refused (r : Refusal) : SameMove (.refused r) (.refused r)

/-- Outcomes alike, as the claim says it. -/
theorem SameMove.cases {o o' : Host.Outcome State Fault Refusal} (h : SameMove o o') :
    (∃ t t', o = .next t ∧ o' = .next t' ∧ SameControl t t') ∨ (∃ f, o = .fault f ∧ o' = .fault f) ∨
      ∃ r, o = .refused r ∧ o' = .refused r := by
  cases h with
  | next h => exact .inl ⟨_, _, rfl, rfl, h⟩
  | fault f => exact .inr (.inl ⟨f, rfl, rfl⟩)
  | refused r => exact .inr (.inr ⟨r, rfl, rfl⟩)

namespace SameControl

variable {s s' : State}

/-- A state is alike to itself with other data. -/
theorem withData (s : State) (st key : Block) (res : Byte) (w : Block) :
    SameControl s { s with stateReg := st, keyReg := key, result := res, wkey := w } :=
  ⟨rfl, rfl, rfl, rfl, rfl, rfl, rfl, rfl⟩

/-- Alike in control is: equal but for STATE, KEY, RESULT and WKEY. -/
theorem eq_withData (h : SameControl s s') :
    s' = { s with stateReg := s'.stateReg, keyReg := s'.keyReg, result := s'.result, wkey := s'.wkey } := by
  obtain ⟨hb, ho, he, hp, hr, hh, ht, hd⟩ := h
  cases s
  cases s'
  simp_all

theorem nextTurn (h : SameControl s s') : s'.nextTurn = s.nextTurn := by
  unfold State.nextTurn
  rw [h.turns, h.busy]

theorem hostStmt (h : SameControl s s') : s'.hostStmt = s.hostStmt := by
  unfold State.hostStmt
  rw [h.host]

theorem takeTurn (h : SameControl s s') : SameControl s.takeTurn s'.takeTurn := by
  rw [h.eq_withData]
  exact withData s.takeTurn ..

theorem hostNext (h : SameControl s s') : SameControl s.hostNext s'.hostNext := by
  rw [h.eq_withData]
  exact withData s.hostNext ..

theorem applyReset (h : SameControl s s') : SameControl s.applyReset s'.applyReset := by
  rw [h.eq_withData]
  exact withData s.applyReset ..

/-- Completions are alike whatever they write to the data registers. -/
theorem complete (h : SameControl s s') (st st' key key' : Block) (res res' : Byte) :
    SameControl (s.complete st key res) (s'.complete st' key' res') := by
  rw [h.eq_withData]
  exact withData (s.complete st key res) st' key' res' _

/-- A read that answers the same. -/
theorem takeAnswer (h : SameControl s s') (t : Nat) (v : Word) : SameControl (s.takeAnswer t v) (s'.takeAnswer t v) := by
  rw [h.eq_withData]
  exact withData (s.takeAnswer t v) ..

/-- A host changed the same way. -/
theorem withHost (h : SameControl s s') (g : HostState) : SameControl { s with host := g } { s' with host := g } := by
  rw [h.eq_withData]
  exact withData { s with host := g } ..

/-- Whatever is written to STATE and KEY, control is untouched. -/
theorem setBlocks (h : SameControl s s') (st st' key key' : Block) :
    SameControl { s with stateReg := st, keyReg := key } { s' with stateReg := st', keyReg := key' } := by
  rw [h.eq_withData]
  exact withData { s with stateReg := st, keyReg := key } ..

theorem overrun (h : SameControl s s') : SameControl s.overrun s'.overrun := by
  rw [h.eq_withData]
  exact withData s.overrun ..

theorem clearOverrun (h : SameControl s s') (v : Word) : SameControl (s.clearOverrun v) (s'.clearOverrun v) := by
  rw [h.eq_withData]
  unfold State.clearOverrun
  split <;> exact withData _ ..

/-- A choice on BUSY falls alike. -/
theorem ite_busy (h : SameControl s s') {a a' b b' : State} (ha : SameControl a a') (hb : SameControl b b') :
    SameControl (if s.busy then a else b) (if s'.busy then a' else b') := by
  rw [h.busy]
  split
  · exact ha
  · exact hb

/-- What a CMD write does depends on BUSY and the word alone (60_exceptions.md R208). -/
theorem commandWrite (h : SameControl s s') (v : Word) : SameControl (commandWrite v s) (commandWrite v s') := by
  rw [h.eq_withData]
  unfold Machine.commandWrite
  split
  · exact withData s.overrun ..
  · split
    · exact withData (s.reject _) ..
    · exact withData (s.accept v) ..

/-- Which registers a host write touches depends on BUSY alone (20_memory.md R59). -/
theorem hostWrite (h : SameControl s s') (r : Reg) (v : Word) : SameControl (hostWrite r v s) (hostWrite r v s') := by
  cases r with
  | cmd => exact h.commandWrite v
  | status => exact h.clearOverrun v
  | result => exact h
  | id => exact h
  | reserved k => exact h
  | stateW k => exact h.ite_busy h.overrun (h.setBlocks ..)
  | keyW k => exact h.ite_busy h.overrun (h.setBlocks ..)

/-- A register that is not data reads alike (20_memory.md R58). -/
theorem hostRead (h : SameControl s s') {r : Reg} (hr : r.isData = false) : hostRead r s' = hostRead r s := by
  cases r with
  | cmd => rfl
  | status => rw [h.eq_withData]; rfl
  | id => rfl
  | reserved k => rfl
  | result => cases hr
  | stateW k => cases hr
  | keyW k => cases hr

/-- Whether exec completes depends on the command alone (10_state.md R37). -/
theorem exec (h : SameControl s s') (i : Instr) : SameMove (exec i s) (exec i s') := by
  rcases exec_cases i s with ⟨hw, st, key, res, e⟩ | ⟨hw, e⟩ <;> rw [e]
  · obtain ⟨st', key', res', e'⟩ := exec_wf i s' hw
    rw [e']
    exact .next (h.complete ..)
  · rcases exec_cases i s' with ⟨hw', -⟩ | ⟨-, e'⟩
    · cases hw.symm.trans hw'
    · rw [e']
      exact .refused _

theorem engineTurn (h : SameControl s s') : SameMove (engineTurn s) (engineTurn s') := by
  unfold Machine.engineTurn
  rw [h.busy, h.pcmd]
  split
  · split
    · exact h.exec _
    · exact .refused _
  · exact .next h

theorem hostJump (h : SameControl s s') (l : Nat) : SameMove (hostJump l s) (hostJump l s') := by
  unfold Machine.hostJump
  rw [h.host]
  split
  · exact .next (h.withHost _)
  · exact .refused _

theorem busWrite (h : SameControl s s') (addr : Nat) (width : Width) (v : Word) :
    SameMove (busWrite addr width v s) (busWrite addr width v s') := by
  unfold Machine.busWrite
  split
  · exact .next h
  · exact .fault _
  · exact .next (h.hostWrite _ v)

/-- A bus read that is not served at a data register. -/
theorem busRead (h : SameControl s s') (t addr : Nat) (width : Width)
    (hr : ∀ r, classify addr width = .served r → r.isData = false) :
    SameMove (busRead t addr width s) (busRead t addr width s') := by
  unfold Machine.busRead
  split
  · rw [h.draws]
    exact .next (h.takeAnswer t _)
  · exact .fault _
  · next r hc =>
    rw [h.hostRead (hr r hc)]
    exact .next (h.takeAnswer t _)

/-- A statement that reads no data register (30_encoding.md R83). -/
theorem hostExec (h : SameControl s s') {st : HostStmt} (hst : st.readsData = false) :
    SameMove (hostExec st s) (hostExec st s') := by
  cases st with
  | label l => exact .next h.hostNext
  | wr r v => exact h.hostNext.busWrite ..
  | rd t r => exact h.hostNext.busRead _ _ _ fun r' hc => by simp_all [HostStmt.readsData]
  | tst t m =>
    unfold Machine.hostExec
    rw [h.host, h.hostNext.host]
    exact .next (h.hostNext.withHost _)
  | bnz l =>
    simp only [Machine.hostExec, h.host]
    split
    · exact .next h.hostNext
    · exact h.hostJump l
  | bz l =>
    simp only [Machine.hostExec, h.host]
    split
    · exact h.hostJump l
    · exact .next h.hostNext
  | halt =>
    unfold Machine.hostExec
    rw [h.host]
    exact .next (h.withHost _)
  | memRead t addr width => exact h.hostNext.busRead _ _ _ fun r' hc => by simp_all [HostStmt.readsData]
  | memWrite addr width v => exact h.hostNext.busWrite ..

theorem hostTurn (h : SameControl s s') (hst : ∀ st, s.hostStmt = some st → st.readsData = false) :
    SameMove (hostTurn s) (hostTurn s') := by
  unfold Machine.hostTurn
  rw [h.hostStmt]
  split
  · next st hs => exact h.hostExec (hst st hs)
  · exact .next h

theorem step (h : SameControl s s')
    (hst : s.nextTurn = .host → ∀ st, s.hostStmt = some st → st.readsData = false) :
    SameMove (step s) (step s') := by
  unfold Machine.step
  rw [h.nextTurn]
  cases ht : s.nextTurn with
  | host => exact h.takeTurn.hostTurn (hst ht)
  | engine => exact h.takeTurn.engineTurn
  | reset => exact .next h.takeTurn.applyReset

end SameControl

/-- Settles O53: every operation of a step takes states alike in control to outcomes alike. -/
theorem controlDoesNotDependOnData : Obligations.ControlDoesNotDependOnData :=
  fun _ _ h hst => (h.step hst).cases

end Sys2Proof.Machine
end

section
/-! PROOF. Who writes what (10_state.md R21, R23-R25, R32, R35): what every move does to each register, and from it the claims
about OVR, ERR, BUSY, the data registers and the operands of a pending command. -/

namespace Sys2Proof.Machine

/-- STATUS written with bit 1 set clears OVR; nothing else does (44_control.md R182). -/
theorem clearOverrun_ovr (s : State) (v : Word) : (s.clearOverrun v).ovr = (s.ovr && !v.getLsbD 1) := by
  unfold State.clearOverrun
  split <;> simp_all

/-- OVR after a move: as it was, set by a dropped write, or cleared by reset or through STATUS (10_state.md R32). -/
theorem Move.ovr_cases {s t : State} (h : Move s t) :
    t.ovr = s.ovr ∨
    (t.ovr = true ∧ s.busy = true ∧
      ∃ r v, s.writesNow r v ∧ (r = .cmd ∨ (∃ k, r = .stateW k) ∨ ∃ k, r = .keyW k)) ∨
    (t.ovr = false ∧ (s.nextTurn = .reset ∨ ∃ v, s.writesNow .status v ∧ v.getLsbD 1 = true)) := by
  cases h with
  | reset ht => exact .inr (.inr ⟨rfl, .inl ht⟩)
  | dropped hw hb hr => exact .inr (.inl ⟨rfl, hb, _, _, hw, hr⟩)
  | @wroteStatus v hw =>
    cases hv : v.getLsbD 1 with
    | true => exact .inr (.inr ⟨by rw [clearOverrun_ovr, hv]; simp, .inr ⟨v, hw, hv⟩⟩)
    | false => exact .inl (by rw [clearOverrun_ovr, hv]; simp)
  | _ => exact .inl rfl

/-- ERR after a move: as it was, or written by reset or by a CMD write that is not dropped (60_exceptions.md R205). -/
theorem Move.err_cases {s t : State} (h : Move s t) :
    t.err = s.err ∨ s.nextTurn = .reset ∨ (s.busy = false ∧ ∃ v, s.writesNow .cmd v) := by
  cases h with
  | reset ht => exact .inr (.inl ht)
  | rejected hw hb => exact .inr (.inr ⟨hb, _, hw⟩)
  | accepted hw hb => exact .inr (.inr ⟨hb, _, hw⟩)
  | wroteStatus => exact .inl (by simp)
  | _ => exact .inl rfl

/-- BUSY after a move: as it was, set by acceptance, or cleared on the engine's or reset's turn (10_state.md R35, R36). -/
theorem Move.busy_cases {s t : State} (h : Move s t) :
    t.busy = s.busy ∨
    (t.busy = true ∧ ∃ v i, s.writesNow .cmd v ∧ decode v = .ok i ∧ t.pcmd = v ∧ t.err = 0) ∨
    (t.busy = false ∧ (s.nextTurn = .reset ∨ s.nextTurn = .engine)) := by
  cases h with
  | reset ht => exact .inr (.inr ⟨rfl, .inl ht⟩)
  | completed ht => exact .inr (.inr ⟨rfl, .inr ht⟩)
  | accepted hw _ hd => exact .inr (.inl ⟨rfl, _, _, hw, hd, rfl, rfl⟩)
  | wroteStatus => exact .inl (by simp)
  | _ => exact .inl rfl

/-- Settles O50, from the ways OVR moves. -/
theorem overrunOnlyByDropClearReset : Obligations.OverrunOnlyByDropClearReset := by
  intro s t h
  rcases (step_move h).ovr_cases with e | ⟨e, hset⟩ | ⟨e, hclear⟩
  · simp_all
  · exact ⟨fun _ _ => hset, by simp [e]⟩
  · exact ⟨by simp [e], fun _ _ => hclear⟩

/-- Settles O51, from the ways ERR and BUSY move. -/
theorem errAndBusyOnlyByLifecycle : Obligations.ErrAndBusyOnlyByLifecycle := by
  intro s t h
  refine ⟨fun hne => (step_move h).err_cases.resolve_left hne, ?_⟩
  rcases (step_move h).busy_cases with e | ⟨e, hrise⟩ | ⟨e, hfall⟩
  · simp_all
  · exact ⟨fun _ _ => hrise, by simp [e]⟩
  · exact ⟨by simp [e], fun _ _ => hfall⟩

/-- While a command stays pending no move writes its operands or PCMD: reset and completion end the wait, and the host's writes
to them are dropped (10_state.md R35, 60_exceptions.md R206). -/
theorem Move.operands_of_busy {s t : State} (h : Move s t) (hs : s.busy = true) (ht : t.busy = true) :
    t.stateReg = s.stateReg ∧ t.keyReg = s.keyReg ∧ t.result = s.result ∧ t.pcmd = s.pcmd := by
  cases h with
  | reset => simp at ht
  | completed => simp at ht
  | rejected _ hb => simp [hs] at hb
  | accepted _ hb => simp [hs] at hb
  | wroteState _ hb => simp [hs] at hb
  | wroteKey _ hb => simp [hs] at hb
  | wroteStatus => simp
  | _ => exact ⟨rfl, rfl, rfl, rfl⟩

/-- Settles O38, from what every move leaves. -/
theorem pendingOperandsAreStable : Obligations.PendingOperandsAreStable :=
  fun _ _ hs h ht => (step_move h).operands_of_busy hs ht

/-- The commands that write STATE (10_state.md R21). -/
def WritesState (i : Instr) : Prop :=
  i = .subshift ∨ i = .mixcol ∨ i = .addkey ∨ (∃ m, i = .round m) ∨ ∃ n m, i = .encrypt n m

/-- The commands that write KEY (10_state.md R23). -/
def WritesKey (i : Instr) : Prop := (∃ r, i = .keynext r) ∨ ∃ r, i = .keyprev r

/-- The commands that write RESULT (10_state.md R24). -/
def WritesResult (i : Instr) : Prop :=
  (∃ x, i = .xtime x) ∨ (∃ x, i = .sbox x) ∨ (∃ y, i = .isbox y) ∨ ∃ r, i = .rcon r

/-- A round-indexed command that goes on has a legal index. -/
theorem withRoundIndex_next {r : BitVec 4} {run : Fin 10 → Host.Outcome State Fault Refusal} {t : State}
    (h : withRoundIndex r run = .next t) : ∃ k, run k = .next t := by
  unfold withRoundIndex at h
  split at h
  · exact ⟨_, h⟩
  · cases h

/-- ENCRYPT that goes on has a legal count. -/
theorem withRoundCount_next {n : BitVec 4} {run : Nat → Host.Outcome State Fault Refusal} {t : State}
    (h : withRoundCount n run = .next t) : ∃ k, run k = .next t := by
  unfold withRoundCount at h
  split at h
  · exact ⟨_, h⟩
  · cases h

/-- From `s` to `t` each data register is as it was unless `i` is one of its writers. -/
structure DataFrame (i : Instr) (s t : State) : Prop where
  stateReg : t.stateReg = s.stateReg ∨ WritesState i
  keyReg : t.keyReg = s.keyReg ∨ WritesKey i
  result : t.result = s.result ∨ WritesResult i

section
variable {i : Instr} {s t : State} {st key : Block} {res : Byte}

/-- What a completion holds in the data registers (10_state.md R36). -/
theorem data_of_complete (h : Host.Outcome.next (φ := Fault) (ρ := Refusal) (s.complete st key res) = .next t) :
    t.stateReg = st ∧ t.keyReg = key ∧ t.result = res := by
  cases h
  exact ⟨rfl, rfl, rfl⟩

/-- The frame of a command that writes RESULT. -/
theorem dataFrame_of_writesResult (hi : WritesResult i)
    (h : Host.Outcome.next (φ := Fault) (ρ := Refusal) (s.complete s.stateReg s.keyReg res) = .next t) :
    DataFrame i s t := by
  obtain ⟨hst, hkey, -⟩ := data_of_complete h
  exact ⟨.inl hst, .inl hkey, .inr hi⟩

/-- The frame of a command that writes STATE. -/
theorem dataFrame_of_writesState (hi : WritesState i)
    (h : Host.Outcome.next (φ := Fault) (ρ := Refusal) (s.complete st s.keyReg s.result) = .next t) :
    DataFrame i s t := by
  obtain ⟨-, hkey, hres⟩ := data_of_complete h
  exact ⟨.inr hi, .inl hkey, .inl hres⟩

/-- The frame of a command that writes KEY. -/
theorem dataFrame_of_writesKey (hi : WritesKey i)
    (h : Host.Outcome.next (φ := Fault) (ρ := Refusal) (s.complete s.stateReg key s.result) = .next t) :
    DataFrame i s t := by
  obtain ⟨hst, -, hres⟩ := data_of_complete h
  exact ⟨.inl hst, .inr hi, .inl hres⟩

end

/-- A command leaves the data registers that it is no writer of as they were (10_state.md R21, R23, R24, R37). -/
theorem exec_dataFrame {i : Instr} {s t : State} (h : exec i s = .next t) : DataFrame i s t := by
  cases i with
  | nop =>
    obtain ⟨hst, hkey, hres⟩ := data_of_complete h
    exact ⟨.inl hst, .inl hkey, .inl hres⟩
  | xtime x => exact dataFrame_of_writesResult (by simp [WritesResult]) h
  | sbox x => exact dataFrame_of_writesResult (by simp [WritesResult]) h
  | isbox y => exact dataFrame_of_writesResult (by simp [WritesResult]) h
  | rcon r =>
    obtain ⟨k, hk⟩ := withRoundIndex_next h
    exact dataFrame_of_writesResult (by simp [WritesResult]) hk
  | subshift => exact dataFrame_of_writesState (by simp [WritesState]) h
  | mixcol => exact dataFrame_of_writesState (by simp [WritesState]) h
  | addkey => exact dataFrame_of_writesState (by simp [WritesState]) h
  | round m => exact dataFrame_of_writesState (by simp [WritesState]) h
  | keynext r =>
    obtain ⟨k, hk⟩ := withRoundIndex_next h
    exact dataFrame_of_writesKey (by simp [WritesKey]) hk
  | keyprev r =>
    obtain ⟨k, hk⟩ := withRoundIndex_next h
    exact dataFrame_of_writesKey (by simp [WritesKey]) hk
  | encrypt n m =>
    obtain ⟨k, hk⟩ := withRoundCount_next h
    exact dataFrame_of_writesState (by simp [WritesState]) hk

/-- The next step completes the pending command `i`. -/
def CompletesNow (s : State) (i : Instr) : Prop :=
  s.nextTurn = .engine ∧ s.busy = true ∧ decode s.pcmd = .ok i

/-- The data registers after a move other than reset: each as it was, written by the idle block's host, or by the completion
of one of its commands (10_state.md R21, R23, R24). -/
theorem Move.data_cases {s t : State} (h : Move s t) (hr : s.nextTurn ≠ .reset) :
    (t.stateReg = s.stateReg ∨ (s.busy = false ∧ ∃ k v, s.writesNow (.stateW k) v) ∨
      ∃ i, CompletesNow s i ∧ WritesState i) ∧
    (t.keyReg = s.keyReg ∨ (s.busy = false ∧ ∃ k v, s.writesNow (.keyW k) v) ∨
      ∃ i, CompletesNow s i ∧ WritesKey i) ∧
    (t.result = s.result ∨ ∃ i, CompletesNow s i ∧ WritesResult i) := by
  cases h with
  | reset ht => exact absurd ht hr
  | @completed i _ _ _ ht hb hd hx =>
    have hc : CompletesNow s i := ⟨ht, hb, hd⟩
    obtain ⟨hst, hkey, hres⟩ := exec_dataFrame hx
    exact ⟨hst.imp_right fun w => .inr ⟨i, hc, w⟩, hkey.imp_right fun w => .inr ⟨i, hc, w⟩,
      hres.imp_right fun w => ⟨i, hc, w⟩⟩
  | wroteState hw hb => exact ⟨.inr (.inl ⟨hb, _, _, hw⟩), .inl rfl, .inl rfl⟩
  | wroteKey hw hb => exact ⟨.inl rfl, .inr (.inl ⟨hb, _, _, hw⟩), .inl rfl⟩
  | wroteStatus => exact ⟨.inl (by simp), .inl (by simp), .inl (by simp)⟩
  | _ => exact ⟨.inl rfl, .inl rfl, .inl rfl⟩

/-- Settles O52, from the ways the data registers move. -/
theorem dataRegistersOnlyByTheirWriters : Obligations.DataRegistersOnlyByTheirWriters := by
  intro s t h hr
  obtain ⟨hst, hkey, hres⟩ := (step_move h).data_cases hr
  refine ⟨fun hne => (hst.resolve_left hne).imp_right ?_, fun hne => (hkey.resolve_left hne).imp_right ?_,
    fun hne => ?_⟩
  · rintro ⟨i, ⟨ht, hb, hd⟩, hw⟩
    exact ⟨i, ht, hb, hd, hw⟩
  · rintro ⟨i, ⟨ht, hb, hd⟩, hw⟩
    exact ⟨i, ht, hb, hd, hw⟩
  · obtain ⟨i, ⟨ht, hb, hd⟩, hw⟩ := hres.resolve_left hne
    exact ⟨i, ht, hb, hd, hw⟩

end Sys2Proof.Machine
end

section
/-! PROOF. From an accepted word to its command's meaning (10_state.md R35-R37), and the fields of STATUS (R25). -/

namespace Sys2Proof

/-- The word of a command names it, whatever its operands (30_encoding.md R77). -/
theorem commandOf_encode (i : Instr) : commandOf (encode i) = some i := by
  cases i <;> simp [commandOf, encode, enc_fields, Instr.opcode]

/-- The words of the commands carry their opcode and leave the reserved bits and unused fields 0 (30_encoding.md R75-R77). -/
theorem encode_fields (i : Instr) : Laws.EncodedFields.Statement i := by
  cases i with
  | nop => exact Laws.EncodedFields.nop
  | xtime x => exact Laws.EncodedFields.xtime x
  | sbox x => exact Laws.EncodedFields.sbox x
  | isbox y => exact Laws.EncodedFields.isbox y
  | rcon r => exact Laws.EncodedFields.rcon r
  | subshift => exact Laws.EncodedFields.subshift
  | mixcol => exact Laws.EncodedFields.mixcol
  | addkey => exact Laws.EncodedFields.addkey
  | round m => exact Laws.EncodedFields.round m
  | keynext r => exact Laws.EncodedFields.keynext r
  | keyprev r => exact Laws.EncodedFields.keyprev r
  | encrypt n m => exact Laws.EncodedFields.encrypt n m

/-- The range check of the word of a command is the term's own (30_encoding.md R73). -/
theorem rndInRange_encode (i : Instr) : rndInRange i.opcode (rndField (encode i)) = i.wf := by
  cases i <;> simp [rndInRange, encode, enc_fields, Instr.opcode, Instr.wf]

/-- A well-formed command is decoded from its word (30_encoding.md R77, R81). -/
theorem decode_encode {i : Instr} (h : i.wf = true) : decode (encode i) = .ok i := by
  obtain ⟨hop, hlow, hhigh, hunused⟩ := encode_fields i
  refine (decode_ok_iff _ _).mpr ⟨commandOf_encode i, hhigh, hlow, ?_, ?_⟩ <;> rw [hop]
  · exact hunused
  · rw [rndInRange_encode, h]

end Sys2Proof

namespace Sys2Proof.Machine

/-- A CMD write of a legal word to an idle block is accepted (10_state.md R35). -/
theorem commandWrite_accept {s : State} {v : Word} {i : Instr} (hb : s.busy = false) (hd : decode v = .ok i) :
    commandWrite v s = s.accept v := by
  simp [commandWrite, hb, hd]

/-- A run of one step is the step. -/
theorem run_one (s : State) : Sys2Proof.core.run 1 s = step s := by
  rw [run_succ]
  cases step s <;> rfl

/-- Settles O34: the engine's turn runs what PCMD decodes to. -/
theorem stepRunsThePendingCommand : Obligations.StepRunsThePendingCommand :=
  fun _ _ ht hb hd => step_engine ht hb hd

/-- Settles O35: the word decodes to its command, so the fetch accepts it, and the engine moves next. -/
theorem presentedWordRunsNext : Obligations.PresentedWordRunsNext := by
  intro s i hi
  have hd := decode_encode hi
  have hword : BitVec.ofNat 32 ((encode i).toNat % 2 ^ 32) = encode i := by
    rw [Nat.mod_eq_of_lt (encode i).isLt, BitVec.ofNat_toNat, BitVec.setWidth_eq]
  rw [State.withFetchWord, hword, commandWrite_accept rfl hd, step_engine rfl rfl hd]
  rfl

/-- Settles O36: the host's write is accepted, and the engine's turn completes the word just written. -/
theorem acceptedCommandThenRuns : Obligations.AcceptedCommandThenRuns := by
  intro s v i rest hb hturns hstmt hd
  have hhost : s.nextTurn = .host := by simp [State.nextTurn, hturns]
  have hwrite : step s = .next (s.takeTurn.hostNext.accept v) := by
    rw [step_writesNow ⟨hhost, .inl hstmt⟩]
    exact congrArg _ (commandWrite_accept hb hd)
  have hengine : (s.takeTurn.hostNext.accept v).nextTurn = .engine := by simp [State.nextTurn, hturns]
  rw [run_succ, hwrite]
  simp only [run_one, step_engine hengine rfl hd]
  congr 1
  simp [State.takeTurn, State.hostNext, State.accept, errOk, hturns]

/-- STATUS bit by bit: BUSY, OVR, two zeros, ERR, and zeros above (10_state.md R25). -/
theorem statusWord_getLsbD (s : State) (j : Nat) :
    (statusWord s).getLsbD j =
      ((decide (j = 0) && s.busy) || (decide (j = 1) && s.ovr) || (decide (4 ≤ j) && s.err.getLsbD (j - 4))) := by
  unfold statusWord
  simp only [BitVec.getLsbD_or, BitVec.getLsbD_shiftLeft, BitVec.getLsbD_setWidth, BitVec.getLsbD_ofBool]
  by_cases hj : j < 8
  · interval_cases j <;> simp
  · have he : s.err.getLsbD (j - 4) = false := BitVec.getLsbD_of_ge _ _ (by omega)
    simp [he, show j ≠ 0 by omega, show j ≠ 1 by omega, show j - 1 ≠ 0 by omega]

/-- Settles O45, bit by bit. -/
theorem statusFieldsAndReservedBits : Obligations.StatusFieldsAndReservedBits := by
  intro s
  refine ⟨(statusWord_getLsbD s 0).trans (by simp), (statusWord_getLsbD s 1).trans (by simp), ?_, ?_, ?_⟩
  all_goals
    apply BitVec.eq_of_getLsbD_eq
    intro j hj
    rw [BitVec.getLsbD_extractLsb', statusWord_getLsbD]
  · interval_cases j <;> simp
  · simp [hj, show 4 + j ≠ 1 by omega]
  · have he : s.err.getLsbD (8 + j - 4) = false := BitVec.getLsbD_of_ge _ _ (by omega)
    simp [he, show 8 + j ≠ 1 by omega]

end Sys2Proof.Machine
end

section
/-! PROOF. The register window (20_memory.md R52-R59): which accesses are served, what a served read answers and leaves alone,
and which bytes a served write of a data register replaces. -/

namespace Sys2Proof.Machine

/-- HostRead depends on the visible registers, and on the draws only where it answers one (20_memory.md R58, R61). -/
theorem hostRead_of_sameVisible {r : Reg} {s t : State} (h : SameVisible s t)
    (hd : r.isData = true → s.busy = true → t.draws = s.draws) : hostRead r t = hostRead r s := by
  obtain ⟨hstate, hkey, hresult, hbusy, hovr, herr⟩ := h
  have draw (hr : r.isData = true) {w w' : Word} (hw : w = w') :
      (if t.busy then Config.anyWord t.draws else w) = if s.busy then Config.anyWord s.draws else w' := by
    cases hb : s.busy with
    | true => simp [hbusy, hb, hd hr hb]
    | false => simp [hbusy, hb, hw]
  cases r with
  | status => simp [hostRead, statusWord, hbusy, hovr, herr]
  | result => exact draw rfl (by rw [hresult])
  | stateW k => exact draw rfl (by rw [hstate])
  | keyW k => exact draw rfl (by rw [hkey])
  | cmd => rfl
  | id => rfl
  | reserved k => rfl

/-- Neither the turn nor the host's position is read by HostRead. -/
theorem hostRead_takeTurn_hostNext (r : Reg) (s : State) : hostRead r s.takeTurn.hostNext = hostRead r s :=
  hostRead_of_sameVisible ⟨rfl, rfl, rfl, rfl, rfl, rfl⟩ fun _ _ => rfl

/-- A data register read while a command is pending answers the next draw (20_memory.md R58, log 5). -/
theorem hostRead_busy {r : Reg} {s : State} (hb : s.busy = true) (hr : r.isData = true) :
    hostRead r s = Config.anyWord s.draws := by
  cases r with
  | result => simp [hostRead, hb]
  | stateW k => simp [hostRead, hb]
  | keyW k => simp [hostRead, hb]
  | cmd => cases hr
  | status => cases hr
  | id => cases hr
  | reserved k => cases hr

section
variable {s : State} (hb : s.busy = false)
include hb

theorem hostRead_result_idle : hostRead .result s = s.result.setWidth 32 := by
  simp [hostRead, hb]

theorem hostRead_stateW_idle (k : Fin 4) : hostRead (.stateW k) s = blockWord s.stateReg k := by
  simp [hostRead, hb]

theorem hostRead_keyW_idle (k : Fin 4) : hostRead (.keyW k) s = blockWord s.keyReg k := by
  simp [hostRead, hb]

theorem hostWrite_stateW_idle (k : Fin 4) (v : Word) :
    hostWrite (.stateW k) v s = { s with stateReg := setBlockWord s.stateReg k v } := by
  simp [hostWrite, hb]

theorem hostWrite_keyW_idle (k : Fin 4) (v : Word) :
    hostWrite (.keyW k) v s = { s with keyReg := setBlockWord s.keyReg k v } := by
  simp [hostWrite, hb]

end

/-- On the host's turn a served read answers HostRead into its variable (20_memory.md R58, 30_encoding.md R83). -/
theorem step_of_servedRead {s : State} {t : Nat} {r : Reg} (ht : s.nextTurn = .host)
    (hs : s.hostStmt = some (.rd t r) ∨
      ∃ addr, s.hostStmt = some (.memRead t addr .w32) ∧ classify addr .w32 = .served r) :
    step s = .next (s.takeTurn.hostNext.takeAnswer t (hostRead r s)) := by
  rw [← hostRead_takeTurn_hostNext]
  rcases hs with hs | ⟨addr, hs, hc⟩
  · rw [step_host ht hs, hostExec, busRead_regAddr]
  · rw [step_host ht hs, hostExec, (classify_served hc).2, busRead_regAddr]

/-- Settles O49: the step only takes the answer in, and a register that is not drawn depends on the visible registers alone. -/
theorem readsChangeNoRegister : Obligations.ReadsChangeNoRegister := by
  intro s t u r ht hs
  have hsame : SameVisible s (s.takeTurn.hostNext.takeAnswer t (hostRead r s)) := ⟨rfl, rfl, rfl, rfl, rfl, rfl⟩
  refine ⟨_, step_of_servedRead ht hs, hsame, rfl, rfl, rfl, rfl, rfl, rfl, rfl, rfl, ?_, fun hu => ?_, fun hidle => ?_⟩
  · simp [readVar_writeVar]
  · simp [readVar_writeVar, hu]
  · exact hostRead_of_sameVisible hsame fun hr hb => by simp [hidle hr] at hb

/-- Settles O44, register by register. -/
theorem servedReadsAnswer : Obligations.ServedReadsAnswer := by
  intro s t r
  refine ⟨hostRead r s, busRead_regAddr t r s, ?cmd, ?status, ?id, ?reserved, ?result, ?state, ?key, hostRead_busy⟩
  case cmd => rintro rfl; rfl
  case status => rintro rfl; rfl
  case id => rintro rfl; rfl
  case reserved => rintro k rfl; rfl
  case result => rintro hb rfl; exact hostRead_result_idle hb
  case state => rintro hb k rfl; exact hostRead_stateW_idle hb k
  case key => rintro hb k rfl; exact hostRead_keyW_idle hb k

/-- Byte `j` of the written word is byte `4k + j` of the block (20_memory.md R53, R59). -/
theorem byteAt_setBlockWord (b : Block) (k j : Fin 4) (v : Word) :
    byteAt (setBlockWord b k v) (4 * k.val + j.val) = wordByte v j.val := by
  rw [← wordByte_blockWord, blockWord_setBlockWord]

/-- A byte outside the written word is kept (20_memory.md R59). -/
theorem byteAt_setBlockWord_of_ne (b : Block) (k : Fin 4) (v : Word) (i : Fin 16) (h : i.val / 4 ≠ k.val) :
    byteAt (setBlockWord b k v) i.val = byteAt b i.val := by
  simp [setBlockWord, h]

/-- Settles O46: a served write is HostWrite, and an idle one of a data register sets one word of its block. -/
theorem dataRegisterWriteReadsBack : Obligations.DataRegisterWriteReadsBack := by
  refine ⟨fun s r v h => step_writesNow h, fun s k v hb => ⟨?state, ?key⟩⟩
  case state =>
    refine ⟨setBlockWord s.stateReg k v, hostWrite_stateW_idle hb k v, ?_,
      fun j => byteAt_setBlockWord _ k j v, byteAt_setBlockWord_of_ne _ k v⟩
    rw [hostWrite_stateW_idle hb, hostRead_stateW_idle, blockWord_setBlockWord]
    exact hb
  case key =>
    refine ⟨setBlockWord s.keyReg k v, hostWrite_keyW_idle hb k v, ?_,
      fun j => byteAt_setBlockWord _ k j v, byteAt_setBlockWord_of_ne _ k v⟩
    rw [hostWrite_keyW_idle hb, hostRead_keyW_idle, blockWord_setBlockWord]
    exact hb

/-- An access is outside exactly when its address is, at any width (20_memory.md R56, log 7). -/
theorem classify_outside_iff (addr : Nat) (width : Width) :
    classify addr width = .outside ↔ inWindow addr = false := by
  unfold classify
  split
  · simp [*]
  · split <;> simp [*]

/-- An access is malformed exactly when it lies in the window and is not an aligned 32-bit one (20_memory.md R54, R55). -/
theorem classify_malformed_iff (addr : Nat) (width : Width) :
    classify addr width = .malformed ↔
      inWindow addr = true ∧ ¬ (width = .w32 ∧ (addr - Config.base) % 4 = 0) := by
  cases hw : inWindow addr with
  | false => simp [(classify_outside_iff addr width).mpr hw]
  | true => simp [classify, hw, imp_iff_not_or]

/-- Settles O47: an aligned word of the window lies at its register's address, and the other accesses are sorted by the two
tests of `classify`. -/
theorem windowServesAlignedWordsOnly : Obligations.WindowServesAlignedWordsOnly := by
  refine ⟨Nat.mul_mod_right 64 _, fun addr width => ⟨fun hout => ?_, fun hlo hhi hwidth hal => ?_, fun hlo hhi hbad => ?_⟩⟩
  · rw [classify_outside_iff, ← Bool.not_eq_true, inWindow_iff]
    omega
  · have haddr : addr = regAddr (regAt (addr - Config.base)) := by
      rw [regAddr, regOffset_regAt _ (by omega) hal]
      omega
    refine ⟨_, ?_, haddr⟩
    rw [hwidth, haddr, classify_regAddr, ← haddr]
  · rw [classify_malformed_iff, inWindow_iff]
    exact ⟨by omega, hbad⟩

end Sys2Proof.Machine
end

section
/-! PROOF. Decode and Enc are inverse on the legal words (30_encoding.md R76, R77, R81): the fields an opcode does not use are 0
in an accepted word, so its operands are all there is to it. -/

namespace Sys2Proof

/-- A word with its reserved bits 0 is Enc of its fields (30_encoding.md R70, R77). -/
theorem enc_of_fields {v : Word} (hhigh : highReserved v = 0) (hlow : lowReserved v = 0) :
    enc (opField v) (imm8Field v) (rndField v) (nomixField v) = v := by
  obtain ⟨ehigh, enomix, ernd, eimm8, elow, eop⟩ := enc_fields (opField v) (imm8Field v) (rndField v) (nomixField v)
  exact word_ext_fields (ehigh.trans hhigh.symm) enomix ernd eimm8 (elow.trans hlow.symm) eop

/-- A word with its reserved bits and unused fields 0 is the word of the command it names: the operands are its used fields. -/
theorem encode_of_commandOf {v : Word} {i : Instr} (hc : commandOf v = some i) (hhigh : highReserved v = 0)
    (hlow : lowReserved v = 0) (hu : v &&& unusedMask (opField v) = 0) : encode i = v := by
  have hop := commandOf_opcode hc
  have hv := enc_of_fields hhigh hlow
  rw [← hop] at hu hv
  cases i
  all_goals simp only [Instr.opcode] at hop hu hv
  case nop | subshift | mixcol | addkey =>
    rwa [imm8_of_mask rfl hu, rnd_of_mask rfl hu, nomix_of_mask rfl hu] at hv
  case xtime x | sbox x | isbox x =>
    obtain rfl : imm8Field v = x := by simpa [commandOf, ← hop] using hc
    rwa [rnd_of_mask rfl hu, nomix_of_mask rfl hu] at hv
  case rcon r | keynext r | keyprev r =>
    obtain rfl : rndField v = r := by simpa [commandOf, ← hop] using hc
    rwa [imm8_of_mask rfl hu, nomix_of_mask rfl hu] at hv
  case round m =>
    obtain rfl : nomixField v = m := by simpa [commandOf, ← hop] using hc
    rwa [imm8_of_mask rfl hu, rnd_of_mask rfl hu] at hv
  case encrypt n m =>
    obtain ⟨rfl, rfl⟩ : rndField v = n ∧ nomixField v = m := by simpa [commandOf, ← hop] using hc
    rwa [imm8_of_mask rfl hu] at hv

/-- An accepted word is the word of its command (30_encoding.md D10). -/
theorem encode_decode {v : Word} {i : Instr} (h : decode v = .ok i) : encode i = v := by
  obtain ⟨hc, hhigh, hlow, hu, -⟩ := (decode_ok_iff v i).mp h
  exact encode_of_commandOf hc hhigh hlow hu

/-- Settles O1: the word of a command names it, and passes every check when the command is well formed. -/
theorem decodeOfEncodeIsTheCommand : Obligations.DecodeOfEncodeIsTheCommand :=
  fun _ hi => decode_encode hi

/-- Settles O2: the fields of an accepted word are its command's operands, or 0 where the command has none. -/
theorem encodeOfDecodeIsTheWord : Obligations.EncodeOfDecodeIsTheWord :=
  fun _ _ h => ⟨decode_ok_wf h, encode_decode h⟩

end Sys2Proof
end

section
/-! PROOF. The checks of Decode over the bits of the word (30_encoding.md R81), and the opcode map as data (R77). -/

namespace Sys2Proof

/-- OP as a number (30_encoding.md R70). -/
theorem toNat_opField (v : Word) : (v &&& 0xF).toNat = (opField v).toNat := by
  simpa [opField] using Nat.and_two_pow_sub_one_eq_mod v.toNat 4

/-- RND as a number (30_encoding.md R73). -/
theorem toNat_rndField (v : Word) : ((v >>> 16) &&& 0xF).toNat = (rndField v).toNat := by
  simpa [rndField] using Nat.and_two_pow_sub_one_eq_mod (v.toNat >>> 16) 4

/-- The reserved bits are [31:21] and [7:4] (30_encoding.md R75). -/
theorem and_reserved_eq_zero_iff (v : Word) : v &&& 0xFFE000F0 = 0 ↔ highReserved v = 0 ∧ lowReserved v = 0 := by
  have hhigh : highReserved (v &&& 0xFFE000F0) = highReserved v := by
    rw [highReserved, BitVec.extractLsb'_and]
    exact BitVec.and_allOnes
  have hlow : lowReserved (v &&& 0xFFE000F0) = lowReserved v := by
    rw [lowReserved, BitVec.extractLsb'_and]
    exact BitVec.and_allOnes
  constructor
  · intro h
    rw [← hhigh, ← hlow, h]
    exact ⟨rfl, rfl⟩
  · rintro ⟨h, h'⟩
    apply word_ext_fields
    · exact hhigh.trans h
    · simp [nomixField]
    · simp [rndField, BitVec.extractLsb'_and]
    · simp [imm8Field, BitVec.extractLsb'_and]
    · exact hlow.trans h'
    · simp [opField, BitVec.extractLsb'_and]

/-- The range check of each opcode (30_encoding.md R73, R81). -/
theorem rndInRange_iff (op rnd : BitVec 4) :
    rndInRange op rnd = true ↔
      ((op.toNat = 4 ∨ op.toNat = 9 ∨ op.toNat = 10) → rnd.toNat ≤ 9) ∧
      (op.toNat = 11 → 1 ≤ rnd.toNat ∧ rnd.toNat ≤ 10) := by
  revert op rnd
  decide

section
variable {v : Word}

/-- Every other opcode names a command (30_encoding.md R71). -/
theorem exists_commandOf (h : (opField v).toNat < 12) : ∃ i, commandOf v = some i :=
  Option.ne_none_iff_exists'.mp fun hn => by have := commandOf_none.mp hn; omega

theorem decode_reservedOpcode (h : 12 ≤ (opField v).toNat) : decode v = .error .op := by
  rw [decode, commandOf_none.mpr h]

/-- Past the opcode check the others are made in this order (30_encoding.md R81). -/
theorem decode_eq_of_commandOf {i : Instr} (hi : commandOf v = some i) :
    decode v = if v &&& 0xFFE000F0 ≠ 0 then .error .rsvd
      else if v &&& unusedMask (opField v) ≠ 0 then .error .rsvd
      else if rndInRange (opField v) (rndField v) = false then .error .round
      else .ok i := by
  simp only [decode, hi, ne_eq, and_reserved_eq_zero_iff, not_and_or]

theorem decode_reservedBit (hop : (opField v).toNat < 12) (hr : v &&& 0xFFE000F0 ≠ 0) : decode v = .error .rsvd := by
  obtain ⟨i, hi⟩ := exists_commandOf hop
  rw [decode_eq_of_commandOf hi, if_pos hr]

theorem decode_unusedBit (hop : (opField v).toNat < 12) (hr : v &&& 0xFFE000F0 = 0)
    (hu : v &&& unusedMask (opField v) ≠ 0) : decode v = .error .rsvd := by
  obtain ⟨i, hi⟩ := exists_commandOf hop
  rw [decode_eq_of_commandOf hi, if_neg (not_not.mpr hr), if_pos hu]

theorem decode_rndOutOfRange (hop : (opField v).toNat < 12) (hr : v &&& 0xFFE000F0 = 0)
    (hu : v &&& unusedMask (opField v) = 0) (hn : rndInRange (opField v) (rndField v) = false) :
    decode v = .error .round := by
  obtain ⟨i, hi⟩ := exists_commandOf hop
  rw [decode_eq_of_commandOf hi, if_neg (not_not.mpr hr), if_neg (not_not.mpr hu), if_pos hn]

/-- A word that passes the four checks is a command, and conversely (30_encoding.md R81). -/
theorem exists_decode_iff :
    (∃ i, decode v = .ok i) ↔ (opField v).toNat < 12 ∧ v &&& 0xFFE000F0 = 0 ∧ v &&& unusedMask (opField v) = 0 ∧
      rndInRange (opField v) (rndField v) = true := by
  simp only [decode_ok_iff, exists_and_right, and_reserved_eq_zero_iff, and_assoc]
  refine and_congr_left fun _ => ⟨fun ⟨i, hi⟩ => ?_, exists_commandOf⟩
  by_contra hop
  simp [commandOf_none.mpr (not_lt.mp hop)] at hi

end

/-- Settles O4: the four checks in their order, read over the bits of the word. -/
theorem decodeChecksInOrder : Obligations.DecodeChecksInOrder := by
  intro v
  simp only [toNat_opField v, toNat_rndField v, BitVec.ofNat_toNat, BitVec.setWidth_eq]
  refine ⟨decode_reservedOpcode, decode_reservedBit, decode_unusedBit, fun hr hu hop hrnd => ?_,
    fun hr hu hop hrnd => ?_, fun hop hr hu hindex hcount => ?_⟩
  · refine decode_rndOutOfRange (by omega) hr hu ?_
    rw [← Bool.not_eq_true, rndInRange_iff]
    omega
  · refine decode_rndOutOfRange (by omega) hr hu ?_
    rw [← Bool.not_eq_true, rndInRange_iff]
    omega
  · obtain ⟨i, hi⟩ := exists_decode_iff.mpr ⟨hop, hr, hu, (rndInRange_iff _ _).mpr ⟨hindex, hcount⟩⟩
    exact ⟨i, hi, congrArg _ (commandOf_opcode ((decode_ok_iff v i).mp hi).1), encode_decode hi⟩

/-- The row is the one of the opcode: its pattern is the opcode, its mask adds OP, the reserved bits and the opcode's unused
bits, and its bounds on RND are the opcode's range (30_encoding.md R73, R75-R77). -/
def OpRow.IsOf (row : OpRow) (op : BitVec 4) : Prop :=
  row.pattern = op.setWidth 32 ∧ row.mask = 0xF ||| 0xFFE000F0 ||| unusedMask op ∧
    ∀ rnd : BitVec 4, (decide (row.rndLo ≤ rnd.toNat) && decide (rnd.toNat ≤ row.rndHi)) = rndInRange op rnd

/-- Every row of the opcode map is that of one of the twelve opcodes. -/
theorem exists_opcode_of_mem_opTable : ∀ row ∈ opTable, ∃ op : BitVec 4, op.toNat < 12 ∧ row.IsOf op := by
  unfold OpRow.IsOf
  decide

/-- The opcode map has one row of each pattern. -/
theorem opTable_pattern_injective : ∀ a ∈ opTable, ∀ b ∈ opTable, a.pattern = b.pattern → a = b := by
  decide

/-- Every command has its row in the opcode map. -/
theorem exists_row (i : Instr) : ∃ row ∈ opTable, row.IsOf i.opcode ∧ row.mnemonic = i.mnemonic := by
  unfold OpRow.IsOf
  cases i <;> simp only [Instr.opcode, Instr.mnemonic] <;> decide

/-- A word under a mask of three parts equals a pattern of the first part exactly when each part says so. -/
theorem and_or_or_eq_iff {v a b c p : Word} (ha : p &&& a = p) (hb : p &&& b = 0) (hc : p &&& c = 0) :
    v &&& (a ||| b ||| c) = p ↔ v &&& a = p ∧ v &&& b = 0 ∧ v &&& c = 0 := by
  constructor
  · intro h
    have part (k : Word) (hk : (a ||| b ||| c) &&& k = k) : v &&& k = p &&& k := by rw [← h, BitVec.and_assoc, hk]
    refine ⟨(part a ?_).trans ha, (part b ?_).trans hb, (part c ?_).trans hc⟩ <;>
      · apply BitVec.eq_of_getLsbD_eq
        simp +contextual
  · rintro ⟨rfl, hb, hc⟩
    simp [BitVec.and_or_distrib_left, hb, hc]

/-- OP is read from the low bits (30_encoding.md R70). -/
theorem opField_eq_iff (v : Word) (op : BitVec 4) : opField v = op ↔ v &&& 0xF = op.setWidth 32 := by
  have := op.isLt
  rw [← BitVec.toNat_inj, ← BitVec.toNat_inj, toNat_opField, BitVec.toNat_setWidth, Nat.mod_eq_of_lt (by omega)]

section
variable {row : OpRow} {op : BitVec 4} (h : row.IsOf op) (v : Word)
include h

/-- The pattern of a row says the opcode and that the reserved bits and the unused ones are 0 (30_encoding.md R77). -/
theorem OpRow.IsOf.fits_iff :
    row.fits v = true ↔ opField v = op ∧ v &&& 0xFFE000F0 = 0 ∧ v &&& unusedMask op = 0 := by
  obtain ⟨hpattern, hmask, -⟩ := h
  rw [OpRow.fits, beq_iff_eq, hpattern, hmask, opField_eq_iff]
  clear hpattern hmask
  apply and_or_or_eq_iff <;> revert op <;> decide

/-- A row accepts the legal words of its opcode (30_encoding.md R77). -/
theorem OpRow.IsOf.accepts_iff (hop : op.toNat < 12) :
    row.accepts v = true ↔ opField v = op ∧ ∃ i, decode v = .ok i := by
  obtain ⟨-, -, hrange⟩ := id h
  rw [OpRow.accepts, Bool.and_eq_true, h.fits_iff, OpRow.constraint, hrange, exists_decode_iff]
  constructor
  · rintro ⟨⟨rfl, hr, hu⟩, hn⟩
    exact ⟨rfl, hop, hr, hu, hn⟩
  · rintro ⟨rfl, -, hr, hu, hn⟩
    exact ⟨⟨rfl, hr, hu⟩, hn⟩

end

/-- The row of the decoded command accepts its word. -/
theorem exists_row_of_decode {v : Word} {i : Instr} (h : decode v = .ok i) :
    ∃ row ∈ opTable, row.accepts v = true ∧ row.mnemonic = i.mnemonic := by
  obtain ⟨row, hmem, hrow, hname⟩ := exists_row i
  have hop := commandOf_opcode ((decode_ok_iff v i).mp h).1
  exact ⟨row, hmem, (hrow.accepts_iff v (hop ▸ (exists_decode_iff.mp ⟨i, h⟩).1)).mpr ⟨hop.symm, i, h⟩, hname⟩

/-- Settles O3: each row accepts the legal words of its one opcode, and a word has one opcode. -/
theorem wordLegalIffOneOpcodeRow : Obligations.WordLegalIffOneOpcodeRow := by
  refine ⟨enc_toNat, fun v => ⟨fun ⟨i, hi⟩ => ?_, fun ⟨row, hmem, hacc⟩ => ?_⟩, fun _ _ => exists_row_of_decode,
    fun v a ha b hb hfa hfb => ?_⟩
  · obtain ⟨row, hmem, hacc, -⟩ := exists_row_of_decode hi
    exact ⟨row, hmem, hacc⟩
  · obtain ⟨op, hop, hrow⟩ := exists_opcode_of_mem_opTable row hmem
    exact ((hrow.accepts_iff v hop).mp hacc).2
  · obtain ⟨opa, -, hrowa⟩ := exists_opcode_of_mem_opTable a ha
    obtain ⟨opb, -, hrowb⟩ := exists_opcode_of_mem_opTable b hb
    obtain rfl : opa = opb := ((hrowa.fits_iff v).mp hfa).1.symm.trans ((hrowb.fits_iff v).mp hfb).1
    exact opTable_pattern_injective a ha b hb (hrowa.1.trans hrowb.1.symm)

end Sys2Proof
end

section
/-! PROOF. The assembler (30_encoding.md R82): operands in range give the command's word, and no other operand gives one. -/

namespace Sys2Proof.Machine

theorem asmByte_of_lt {x : Nat} (h : x < 256) : asmByte x = some (BitVec.ofNat 8 x) :=
  if_pos h

theorem asmByte_of_ge {x : Nat} (h : 256 ≤ x) : asmByte x = none :=
  if_neg (not_lt.mpr h)

section
variable {lo hi r : Nat}

theorem asmRound_of_mem (h : lo ≤ r ∧ r ≤ hi) : asmRound lo hi r = some (BitVec.ofNat 4 r) :=
  if_pos h

theorem asmRound_of_not_mem (h : ¬ (lo ≤ r ∧ r ≤ hi)) : asmRound lo hi r = none :=
  if_neg h

/-- A round operand that the assembler takes lies between its bounds, which fit RND (30_encoding.md R73, R82). -/
theorem asmRound_eq_some {k : BitVec 4} (hhi : hi < 16) (h : asmRound lo hi r = some k) : lo ≤ k.toNat ∧ k.toNat ≤ hi := by
  unfold asmRound at h
  split at h
  · cases h
    rw [BitVec.toNat_ofNat, Nat.mod_eq_of_lt (by omega)]
    assumption
  · cases h

end

theorem asmNomix_of_ge {m : Nat} (h : 2 ≤ m) : asmNomix (some m) = none := by
  match m, h with
  | m + 2, _ => rfl

/-- The assembler takes a round index exactly as R73 has it. -/
theorem roundIndexOk_of_asmRound {r : Nat} {k : BitVec 4} (h : asmRound 0 9 r = some k) : roundIndexOk k = true :=
  decide_eq_true (asmRound_eq_some (by decide) h).2

/-- A line stands for well-formed commands only (30_encoding.md R73, R82). -/
theorem wf_of_asm_command {a : Asm} {i : Instr} (h : a.command = some i) : i.wf = true := by
  cases a with
  | rcon r | keynext r | keyprev r =>
    obtain ⟨k, hk, rfl⟩ := Option.map_eq_some_iff.mp h
    exact roundIndexOk_of_asmRound hk
  | encrypt n m =>
    obtain ⟨k, hk, hm⟩ := Option.bind_eq_some_iff.mp h
    obtain ⟨b, -, rfl⟩ := Option.map_eq_some_iff.mp hm
    simpa [Instr.wf, roundCountOk] using asmRound_eq_some (by decide) hk
  | xtime x | sbox x | isbox x | round x =>
    obtain ⟨_, -, rfl⟩ := Option.map_eq_some_iff.mp h
    rfl
  | nop | subshift | mixcol | addkey =>
    cases h
    rfl

/-- A line's word decodes to its command (30_encoding.md R82). -/
theorem decode_of_assemble {a : Asm} {w : Word} (h : a.assemble = some w) :
    ∃ i, a.command = some i ∧ decode w = .ok i := by
  obtain ⟨i, hi, rfl⟩ := Option.map_eq_some_iff.mp h
  exact ⟨i, hi, decode_encode (wf_of_asm_command hi)⟩

/-- Settles O6: line by line from what its operands give. -/
theorem assemblerRefusesOutOfRange : Obligations.AssemblerRefusesOutOfRange := by
  refine ⟨⟨rfl, rfl, rfl, rfl⟩, fun x hx => ?byte, fun r hr => ?index, ⟨rfl, rfl, rfl⟩, fun n hlo hhi => ?count,
    fun x hx => ?byteOut, fun r hr => ?indexOut, fun n m hn => ?countOut, fun n m hm => ?nomixOut,
    fun _ _ => decode_of_assemble⟩
  case byte =>
    simp only [Asm.assemble, Asm.command, asmByte_of_lt (show x < 256 by omega)]
    exact ⟨rfl, rfl, rfl⟩
  case index =>
    simp only [Asm.assemble, Asm.command, asmRound_of_mem ⟨Nat.zero_le r, hr⟩]
    exact ⟨rfl, rfl, rfl⟩
  case count =>
    simp only [Asm.assemble, Asm.command, asmRound_of_mem ⟨hlo, hhi⟩]
    exact ⟨rfl, rfl, rfl⟩
  case byteOut =>
    simp only [Asm.assemble, Asm.command, asmByte_of_ge hx]
    exact ⟨rfl, rfl, rfl⟩
  case indexOut =>
    simp only [Asm.assemble, Asm.command, asmRound_of_not_mem (show ¬ (0 ≤ r ∧ r ≤ 9) by omega)]
    exact ⟨rfl, rfl, rfl⟩
  case countOut =>
    simp only [Asm.assemble, Asm.command, asmRound_of_not_mem (show ¬ (1 ≤ n ∧ n ≤ 10) by omega)]
    rfl
  case nomixOut =>
    simp only [Asm.assemble, Asm.command, asmNomix_of_ge hm]
    simp

end Sys2Proof.Machine
end

section
/-! PROOF. Words written out from the patterns (30_encoding.md R77, R82), and the command terms that exec refuses (R73). -/

namespace Sys2Proof.Machine

/-- Settles O5: each word's fields, computed. -/
theorem writtenOutWordsDecode : Obligations.WrittenOutWordsDecode := by
  unfold Obligations.WrittenOutWordsDecode
  decide

/-- Settles O33: exec completes a well-formed term and refuses every other. -/
theorem onlyIllFormedTermsAreRefused : Obligations.OnlyIllFormedTermsAreRefused := by
  intro i s
  rcases exec_cases i s with ⟨hwf, st, key, res, h⟩ | ⟨hwf, h⟩
  · simp [hwf, h]
  · simp [hwf, h]

end Sys2Proof.Machine
end

section
/-! PROOF. The host's own statements (30_encoding.md R83), and what CHKOK tests (R84). -/

namespace Sys2Proof.Machine

/-- The first statement that defines the label is where it is found (log 10). -/
theorem findLabel_of_first {program : List HostStmt} {l pos : Nat} (h : program[pos]? = some (.label l))
    (hfirst : ∀ q, q < pos → program[q]? ≠ some (.label l)) : findLabel program l 0 = some pos :=
  (findLabel_eq_some_iff program l 0 pos).mpr ⟨pos, (Nat.zero_add pos).symm, h, hfirst⟩

section
variable {s : State}

theorem hostExec_bnz_taken {l : Nat} (hz : s.host.z = false) : hostExec (.bnz l) s = hostJump l s := by
  simp [hostExec, hz]

theorem hostExec_bz_taken {l : Nat} (hz : s.host.z = true) : hostExec (.bz l) s = hostJump l s := by
  simp [hostExec, hz]

theorem hostExec_bnz_not_taken {l : Nat} (hz : s.host.z = true) : hostExec (.bnz l) s = .next s.hostNext := by
  simp [hostExec, hz]

theorem hostExec_bz_not_taken {l : Nat} (hz : s.host.z = false) : hostExec (.bz l) s = .next s.hostNext := by
  simp [hostExec, hz]

end

/-- Settles O58: each statement's turn is its meaning, and a branch goes to the first label of its name. -/
theorem hostStatementsMoveOnlyTheHost : Obligations.HostStatementsMoveOnlyTheHost := by
  intro s st hturn hstmt
  rw [step_host hturn hstmt]
  refine ⟨?tst, fun l hl => ?taken, fun l hl => ?next, ?halt⟩
  case tst =>
    rintro t m rfl
    rfl
  case taken =>
    have hjump : hostExec st s.takeTurn = hostJump l s.takeTurn := by
      rcases hl with ⟨rfl, hz⟩ | ⟨rfl, hz⟩
      · exact hostExec_bnz_taken hz
      · exact hostExec_bz_taken hz
    rw [hjump, hostJump, takeTurn_host]
    refine ⟨fun pos hpos hfirst => ?_, fun hnone => ?_⟩
    · rw [findLabel_of_first hpos hfirst]
      rfl
    · rw [(findLabel_eq_none_iff _ l 0).mpr hnone]
  case next =>
    rcases hl with rfl | ⟨rfl, hz⟩ | ⟨rfl, hz⟩
    · rfl
    · exact hostExec_bnz_not_taken hz
    · exact hostExec_bz_not_taken hz
  case halt =>
    rintro rfl
    rfl

/-- The mask 0xF2 keeps ERR and OVR of STATUS (10_state.md R25, 30_encoding.md R84). -/
theorem statusWord_and_errOvr (s : State) : statusWord s &&& 0xF2 = 0 ↔ s.err = 0 ∧ s.ovr = false := by
  unfold statusWord
  generalize s.err = err, s.ovr = ovr, s.busy = busy
  revert err ovr busy
  decide

/-- Settles O59: the statements are CHKOK's, and its mask keeps ERR and OVR. -/
theorem checkOkTestsErrAndOverrun : Obligations.CheckOkTestsErrAndOverrun :=
  ⟨fun _ => rfl, statusWord_and_errOvr⟩

end Sys2Proof.Machine
end

section
/-! PROOF. xtime (40_gf_tables.md R101, R102): it is additive over XOR, and its value as a number. -/

namespace Sys2Proof.Machine

/-- The reduction of an XOR of carries is the XOR of the reductions (40_gf_tables.md R101). -/
theorem mask8_xor_and (c d : BitVec 1) : mask8 (c ^^^ d) &&& 0x1B = (mask8 c &&& 0x1B) ^^^ (mask8 d &&& 0x1B) := by
  revert c d
  decide

/-- xtime is additive (40_gf_tables.md R102 (a)): the shift and the reduction are. -/
theorem xtime_xor (a b : Byte) : xtime (a ^^^ b) = xtime a ^^^ xtime b := by
  simp only [xtime, BitVec.extractLsb'_xor, mask8_xor_and, BitVec.shiftLeft_xor_distrib]
  ac_rfl

/-- Bit 7 of a byte, as its value tells it. -/
theorem toNat_carry (x : Byte) : (x.extractLsb' 7 1).toNat = x.toNat / 128 := by
  have := x.isLt
  rw [BitVec.extractLsb'_toNat, Nat.shiftRight_eq_div_pow]
  omega

/-- Without a carry xtime doubles (40_gf_tables.md R102 (d)). -/
theorem toNat_xtime_of_lt {x : Byte} (h : x.toNat < 0x80) : (xtime x).toNat = 2 * x.toNat := by
  have hc : x.extractLsb' 7 1 = 0 := BitVec.eq_of_toNat_eq ((toNat_carry x).trans (Nat.div_eq_of_lt h))
  have hm : mask8 0 &&& 0x1B = 0#8 := by decide
  rw [xtime, hc, hm, BitVec.xor_zero, BitVec.toNat_shiftLeft, Nat.shiftLeft_eq]
  omega

/-- With a carry xtime drops it and reduces (40_gf_tables.md R102 (d)). -/
theorem toNat_xtime_of_ge {x : Byte} (h : x.toNat ≥ 0x80) : (xtime x).toNat = (2 * x.toNat - 256) ^^^ 0x1B := by
  have hx := x.isLt
  have hc : x.extractLsb' 7 1 = 1 := BitVec.eq_of_toNat_eq ((toNat_carry x).trans (show x.toNat / 128 = 1 by omega))
  have hm : mask8 1 &&& 0x1B = 0x1B := by decide
  have hs : x.toNat * 2 % 256 = 2 * x.toNat - 256 := by omega
  rw [xtime, hc, hm, BitVec.toNat_xor, BitVec.toNat_shiftLeft, Nat.shiftLeft_eq]
  exact congrArg (· ^^^ 0x1B) hs

end Sys2Proof.Machine
end

section
/-! PROOF. Multiplication in the field (40_gf_tables.md R100): a map of bytes that is additive and commutes with xtime is the
multiplication by its value at 1, and from this come the laws of the product. -/

namespace Sys2Proof.Machine

/-- One shift and add of a product. -/
def gfStep (x y acc : Byte) (i : Nat) : Byte := xtime acc ^^^ (if y.getLsbD i then x else 0)

theorem gfMul_eq_foldl (x y : Byte) : gfMul x y = [7, 6, 5, 4, 3, 2, 1, 0].foldl (gfStep x y) 0 := rfl

theorem gfStep_xor (a b y c d : Byte) (i : Nat) : gfStep (a ^^^ b) y (c ^^^ d) i = gfStep a y c i ^^^ gfStep b y d i := by
  simp only [gfStep, xtime_xor]
  cases y.getLsbD i
  · simp
  · simp only [if_true]
    ac_rfl

/-- The product is additive in its first factor, as each of its steps is. -/
theorem gfMul_xor_left (a b y : Byte) : gfMul (a ^^^ b) y = gfMul a y ^^^ gfMul b y := by
  simp only [gfMul_eq_foldl]
  exact List.foldl_hom₂ _ (· ^^^ ·) (gfStep a y) (gfStep b y) _ 0 0 fun c d i => (gfStep_xor a b y c d i).symm

/-- Additive over XOR and commuting with xtime. -/
structure XtimeLinear (g : Byte → Byte) : Prop where
  map_xor : ∀ a b, g (a ^^^ b) = g a ^^^ g b
  map_xtime : ∀ a, g (xtime a) = xtime (g a)

namespace XtimeLinear

variable {g : Byte → Byte} (hg : XtimeLinear g)
include hg

theorem map_zero : g 0 = 0 := by
  simpa using hg.map_xor 0 0

theorem map_gfStep (x y acc : Byte) (i : Nat) : g (gfStep x y acc i) = gfStep (g x) y (g acc) i := by
  rw [gfStep, gfStep, hg.map_xor, hg.map_xtime, apply_ite g, hg.map_zero]

/-- A linear map goes through the shifts and adds of a product. -/
theorem map_gfMul (x y : Byte) : g (gfMul x y) = gfMul (g x) y := by
  have h := List.foldl_hom g (l := [7, 6, 5, 4, 3, 2, 1, 0]) (init := 0) fun acc i => (hg.map_gfStep x y acc i).symm
  rw [hg.map_zero] at h
  exact h.symm

end XtimeLinear

/-- Multiplication by the byte `y` is linear: additive, and xtime goes through a product. -/
theorem xtimeLinear_gfMul (y : Byte) : XtimeLinear (gfMul · y) :=
  have hx : XtimeLinear xtime := ⟨xtime_xor, fun _ => rfl⟩
  ⟨fun a b => gfMul_xor_left a b y, fun a => (hx.map_gfMul a y).symm⟩

theorem gfMul_xtime_left (x y : Byte) : gfMul (xtime x) y = xtime (gfMul x y) :=
  (xtimeLinear_gfMul y).map_xtime x

/-- Shifting and adding the bits of a byte, from the top one down, gives the byte. -/
@[simp] theorem gfMul_one_left (y : Byte) : gfMul 1 y = y := by
  revert y
  decide

/-- A linear map is the multiplication by its value at 1. -/
theorem XtimeLinear.eq_gfMul {g : Byte → Byte} (hg : XtimeLinear g) (y : Byte) : g y = gfMul (g 1) y := by
  rw [← hg.map_gfMul, gfMul_one_left]

theorem gfMul_comm (x y : Byte) : gfMul x y = gfMul y x := by
  rw [(xtimeLinear_gfMul y).eq_gfMul x, gfMul_one_left]

theorem gfMul_assoc (x y z : Byte) : gfMul (gfMul x y) z = gfMul x (gfMul y z) := by
  rw [gfMul_comm x y, gfMul_comm x, (xtimeLinear_gfMul z).map_gfMul y x]

theorem gfMul_xor_right (x a b : Byte) : gfMul x (a ^^^ b) = gfMul x a ^^^ gfMul x b := by
  simp only [gfMul_comm x, gfMul_xor_left]

@[simp] theorem gfMul_one_right (x : Byte) : gfMul x 1 = x := by
  rw [gfMul_comm, gfMul_one_left]

@[simp] theorem gfMul_zero_left (y : Byte) : gfMul 0 y = 0 :=
  (xtimeLinear_gfMul y).map_zero

theorem gfMul_xtime_right (x y : Byte) : gfMul x (xtime y) = xtime (gfMul x y) := by
  rw [gfMul_comm, gfMul_xtime_left, gfMul_comm]

theorem gfMul_mul_mul_comm (a b c d : Byte) : gfMul (gfMul a b) (gfMul c d) = gfMul (gfMul a c) (gfMul b d) := by
  rw [gfMul_assoc, ← gfMul_assoc b, gfMul_comm b c, gfMul_assoc c, ← gfMul_assoc a]

/-- xtime has an inverse: the multiplication by 0x8D, whose xtime is 1 (40_gf_tables.md R102 (c), (e)). -/
theorem xtime_bijective : Function.Bijective xtime := by
  have h1 : xtime 0x8D = 1 := by decide
  have hx (x : Byte) : xtime (gfMul x 0x8D) = x := by rw [← gfMul_xtime_right, h1, gfMul_one_right]
  refine Function.bijective_iff_has_inverse.mpr ⟨(gfMul · 0x8D), fun x => ?_, hx⟩
  exact (gfMul_xtime_left x 0x8D).trans (hx x)

/-- Settles O7: linear by its bits, and a bijection because the field element x has an inverse. -/
theorem xtimeIsLinearBijection : Obligations.XtimeIsLinearBijection :=
  ⟨xtime_xor, by decide, xtime_bijective, fun _ => toNat_xtime_of_lt, fun _ => toNat_xtime_of_ge, by decide, by decide⟩

end Sys2Proof.Machine
end

section
/-! PROOF. The field inverse as a power (40_gf_tables.md R104): squaring eight times changes nothing, so `x * gfInv x` is 1
wherever `x` has an inverse at all. -/

namespace Sys2Proof.Machine

/-- The square of a field element. -/
def gfSq (x : Byte) : Byte := gfMul x x

theorem gfSq_gfMul : Function.Semiconj₂ gfSq gfMul gfMul :=
  fun x y => gfMul_mul_mul_comm x y x y

/-- Squaring is additive: the two mixed products cancel. -/
theorem gfSq_xor : Function.Semiconj₂ gfSq (· ^^^ ·) (· ^^^ ·) := by
  intro a b
  simp only [gfSq, gfMul_xor_left, gfMul_xor_right, gfMul_comm b a]
  rw [BitVec.xor_assoc, ← BitVec.xor_assoc (gfMul a b), BitVec.xor_self, BitVec.zero_xor]

theorem xtime_eq_gfMul (x : Byte) : xtime x = gfMul 2 x := by
  have h : xtime 1 = 2 := by decide
  rw [← h, gfMul_xtime_left, gfMul_one_left]

/-- The 256th power of the field element x is x, two squarings at a time. -/
theorem gfSq_iterate_eight_two : gfSq^[8] 2 = 2 := by
  have h2 : gfSq^[2] 0x02 = 0x10 := by decide
  have h4 : gfSq^[2] 0x10 = 0x5E := by decide
  have h6 : gfSq^[2] 0x5E = 0x4D := by decide
  have h8 : gfSq^[2] 0x4D = 0x02 := by decide
  rw [Function.iterate_add_apply gfSq 6 2, h2, Function.iterate_add_apply gfSq 4 2, h4,
    Function.iterate_add_apply gfSq 2 2, h6, h8]

/-- Eight squarings are additive and fix the field elements 1 and x, so they fix every byte: a 256th power is its base. -/
theorem gfSq_iterate_eight (y : Byte) : gfSq^[8] y = y := by
  have hlin : XtimeLinear gfSq^[8] :=
    { map_xor := gfSq_xor.iterate 8
      map_xtime := fun a => by rw [xtime_eq_gfMul, (gfSq_gfMul.iterate 8).eq, gfSq_iterate_eight_two, xtime_eq_gfMul] }
  have hone : gfSq^[8] 1 = 1 := Function.iterate_fixed (show gfSq 1 = 1 from gfMul_one_left 1) 8
  rw [hlin.eq_gfMul, hone, gfMul_one_left]

theorem gfMul_self (x : Byte) : gfMul x x = gfSq x := rfl

theorem gfMul_self_left (x r : Byte) : gfMul x (gfMul x r) = gfMul (gfSq x) r :=
  (gfMul_assoc x x r).symm

/-- `gfInv x` is the 254th power of `x`, two factors short of the 256th. -/
theorem gfMul_gfMul_gfInv (x : Byte) : gfMul x (gfMul x (gfInv x)) = x := by
  rw [gfInv]
  simp only [gfMul_self, gfMul_self_left]
  exact gfSq_iterate_eight x

@[simp] theorem gfInv_zero : gfInv 0 = 0 := by
  rw [gfInv]
  simp only [gfMul_zero_left]

/-- Where a byte has an inverse, its 254th power is that inverse (40_gf_tables.md R104). -/
theorem gfInv_eq_of_gfMul_eq_one {x u : Byte} (h : gfMul x u = 1) : gfInv x = u :=
  calc gfInv x = gfMul (gfSq (gfMul x u)) (gfInv x) := by rw [h, gfSq, gfMul_one_left, gfMul_one_left]
    _ = gfMul (gfSq u) (gfMul x (gfMul x (gfInv x))) := by
      rw [gfMul_self_left, gfSq_gfMul.eq, gfMul_comm (gfSq x), gfMul_assoc]
    _ = gfMul u (gfMul x u) := by rw [gfMul_gfMul_gfInv, gfSq, gfMul_assoc, gfMul_comm u x]
    _ = u := by rw [h, gfMul_one_right]

end Sys2Proof.Machine
end

section
/-! PROOF. The S-box tables (40_gf_tables.md R103-R106): inverse to one another, and the affine map of the field inverse. -/

namespace Sys2Proof.Machine

@[simp] theorem romSinv_romS (x : Byte) : romSinv (romS x) = x := by
  revert x
  decide

/-- Settles O8: one composition is computed, and on a finite type it gives the other. -/
theorem sboxesAreInverse : Obligations.SboxesAreInverse :=
  fun x => ⟨romSinv_romS x, Function.LeftInverse.rightInverse_of_card_le romSinv_romS le_rfl x⟩

/-- The inverse of the S-box's affine map; `sboxAffine_sboxAffineInv` ties it to the map. -/
def sboxAffineInv (s : Byte) : Byte := s.rotateLeft 1 ^^^ s.rotateLeft 3 ^^^ s.rotateLeft 6 ^^^ 0x05

@[simp] theorem sboxAffine_sboxAffineInv (s : Byte) : sboxAffine (sboxAffineInv s) = s := by
  revert s
  decide

/-- A nonzero byte times its S-box entry with the affine map undone is 1 (40_gf_tables.md R104). -/
theorem gfMul_sboxAffineInv_romS : ∀ x : Byte, x ≠ 0 → gfMul x (sboxAffineInv (romS x)) = 1 := by
  decide

theorem gfInv_eq_sboxAffineInv_romS (x : Byte) : gfInv x = sboxAffineInv (romS x) := by
  by_cases hx : x = 0
  · rw [hx, gfInv_zero]
    decide
  · exact gfInv_eq_of_gfMul_eq_one (gfMul_sboxAffineInv_romS x hx)

/-- No fixed and no opposite fixed point (40_gf_tables.md R104). -/
theorem romS_ne : ∀ x : Byte, romS x ≠ x ∧ romS x ≠ x ^^^ 0xFF := by
  decide

/-- Settles O9: the table's entries with the affine map undone are inverses, and a byte has one inverse, `gfInv`. -/
theorem sboxIsAffineOfFieldInverse : Obligations.SboxIsAffineOfFieldInverse := by
  refine ⟨gfInv_zero, fun x hx => ?_, fun x => ?_, romS_ne⟩
  · rw [gfInv_eq_sboxAffineInv_romS, gfMul_sboxAffineInv_romS x hx]
  · rw [gfInv_eq_sboxAffineInv_romS, sboxAffine_sboxAffineInv]

end Sys2Proof.Machine
end

section
/-! PROOF. The byte commands (40_gf_tables.md R108-R111) at completion. -/

namespace Sys2Proof.Machine

/-- A command that answers a completion completes as claims say it. -/
theorem exists_completesWith {o : Host.Outcome State Fault Refusal} {s : State} {st key : Block} {res : Byte}
    (h : o = .next (s.complete st key res)) : ∃ t, o = .next t ∧ CompletesWith s t st key res :=
  ⟨_, h, completesWith_complete s st key res⟩

/-- Settles O29: each arm is a completion that writes RESULT, RCON's at a legal index. -/
theorem byteCommandsWriteResult : Obligations.ByteCommandsWriteResult :=
  fun _ => ⟨fun _ => exists_completesWith rfl, fun _ => exists_completesWith rfl, fun _ => exists_completesWith rfl,
    fun r => exists_completesWith (withRoundIndex_ofNat r _)⟩

end Sys2Proof.Machine
end

section
/-! PROOF. The round steps by element (41_round.md R120-R124, R126): what each step puts in row `r` and column `c`. -/

namespace Sys2Proof.Machine

section

variable (s : Block) (r c : Fin 4)

/-- Two blocks with the same matrix are equal (10_state.md R22). -/
theorem block_ext_matrix {a b : Block} (h : ∀ r c : Fin 4, matrixAt a r c = matrixAt b r c) : a = b :=
  block_ext fun i => by
    have hi := h ⟨i.val % 4, Nat.mod_lt _ (by decide)⟩ ⟨i.val / 4, by omega⟩
    simpa only [matrixAt, Nat.mod_add_div] using hi

/-- Byte `r` of column `c` is the element of row `r` and column `c` (10_state.md R22). -/
theorem byteAt_column (r c : Nat) : byteAt s (4 * c + r) = matrixAt s r c :=
  congrArg (byteAt s) (Nat.add_comm _ _)

theorem byteAt_column_zero (c : Nat) : byteAt s (4 * c) = matrixAt s 0 c :=
  byteAt_column s 0 c

/-- The row of a matrix position's byte index. -/
theorem row_mod : (r.val + 4 * c.val) % 4 = r.val := by omega

/-- The column of a matrix position's byte index. -/
theorem column_div : (r.val + 4 * c.val) / 4 = c.val := by omega

theorem matrixAt_subBytes : matrixAt (subBytes s) r c = romS (matrixAt s r c) :=
  matrixAt_blockOfFn _ r c

theorem matrixAt_shiftRows : matrixAt (shiftRows s) r c = matrixAt s r (c + r : Fin 4) := by
  rw [shiftRows, matrixAt_blockOfFn, row_mod, column_div, Fin.val_add]

theorem matrixAt_subShift : matrixAt (subShift s) r c = romS (matrixAt s r (c + r : Fin 4)) := by
  rw [subShift, matrixAt_blockOfFn, row_mod, column_div, Fin.val_add]

theorem matrixAt_mixColumns : matrixAt (mixColumns s) r c = mixByte (fun j => matrixAt s j c) r := by
  rw [mixColumns, matrixAt_blockOfFn, row_mod, column_div]

theorem matrixAt_invMixColumns : matrixAt (invMixColumns s) r c = invMixByte (fun j => matrixAt s j c) r := by
  rw [invMixColumns, matrixAt_blockOfFn, row_mod, column_div]

theorem matrixAt_addRoundKey (k : Block) (r c : Nat) : matrixAt (addRoundKey s k) r c = matrixAt s r c ^^^ matrixAt k r c :=
  byteAt_addRoundKey s k _

/-- A mixed byte depends on the four bytes of its column alone (41_round.md R126). -/
theorem mixByte_congr {a b : Nat → Byte} (h : ∀ j : Fin 4, a j = b j) : mixByte a r = mixByte b r := by
  have hnext : a ((r.val + 1) % 4) = b ((r.val + 1) % 4) := h (r + 1)
  have h0 : a 0 = b 0 := h 0
  have h1 : a 1 = b 1 := h 1
  have h2 : a 2 = b 2 := h 2
  have h3 : a 3 = b 3 := h 3
  simp only [mixByte, h r, hnext, h0, h1, h2, h3]

end

/-- Settles O16: by the value of each step's element, which names its own lane alone. -/
theorem roundStepsKeepLanes : Obligations.RoundStepsKeepLanes := by
  refine ⟨fun s s' k k' i hs hk => ?_, fun s s' r c h => ?_, fun s s' c h r => ?_⟩
  · rw [byteAt_addRoundKey, byteAt_addRoundKey, hs, hk]
  · rw [matrixAt_subShift, matrixAt_subShift]
    exact congrArg romS h
  · rw [matrixAt_mixColumns, matrixAt_mixColumns]
    exact mixByte_congr r h

/-- Settles O15: each byte's two XORs with one key byte cancel. -/
theorem addRoundKeyXorsAndUndoes : Obligations.AddRoundKeyXorsAndUndoes := by
  refine fun s k => ⟨fun i => byteAt_addRoundKey s k i, block_ext fun i => ?_⟩
  rw [byteAt_addRoundKey, byteAt_addRoundKey, BitVec.xor_assoc, BitVec.xor_self, BitVec.xor_zero]

end Sys2Proof.Machine
end

section
/-! PROOF. SubShift (41_round.md R120, R121): its two halves commute and are bijections. -/

namespace Sys2Proof.Machine

/-- A map whose fourth iterate is the identity is undone by its third. -/
theorem bijective_of_iterate_four {α : Type} {f : α → α} (h : ∀ x, f (f (f (f x))) = x) : Function.Bijective f :=
  Function.bijective_iff_has_inverse.mpr ⟨fun x => f (f (f x)), h, h⟩

/-- Settles O10: the matrix form, and the table of byte indexes, which is the matrix form's index at each of the 16. -/
theorem subShiftTakesFromRotatedColumn : Obligations.SubShiftTakesFromRotatedColumn := by
  refine fun s => ⟨matrixAt_subShift s, fun i => ?_⟩
  have hindex : ∀ i : Fin 16, i.val % 4 + 4 * ((i.val / 4 + i.val % 4) % 4) =
      (#v[0, 5, 10, 15, 4, 9, 14, 3, 8, 13, 2, 7, 12, 1, 6, 11] : Vector Nat 16)[i] := by decide
  rw [byteAt_subShift, matrixAt, hindex]

theorem subShift_eq_shiftRows_subBytes (s : Block) : subShift s = shiftRows (subBytes s) :=
  block_ext_matrix fun r c => by rw [matrixAt_subShift, matrixAt_shiftRows, matrixAt_subBytes]

theorem subShift_eq_subBytes_shiftRows (s : Block) : subShift s = subBytes (shiftRows s) :=
  block_ext_matrix fun r c => by rw [matrixAt_subShift, matrixAt_subBytes, matrixAt_shiftRows]

/-- Four rotations by `r` bring row `r` back. -/
theorem shiftRows_iterate_four (s : Block) : shiftRows (shiftRows (shiftRows (shiftRows s))) = s := by
  refine block_ext_matrix fun r c => ?_
  have hc : c + r + r + r + r = c := by
    revert r c
    decide
  simp only [matrixAt_shiftRows, hc]

/-- The inverse S-box on each byte; `subBytes_bijective` ties it to SubBytes. -/
def invSubBytes (s : Block) : Block := blockOfFn fun i => romSinv (byteAt s i.val)

/-- The S-box has an inverse on bytes, so applied to each byte it has one on blocks. -/
theorem subBytes_bijective : Function.Bijective subBytes := by
  refine Function.bijective_iff_has_inverse.mpr ⟨invSubBytes, fun s => block_ext fun i => ?_, fun s => block_ext fun i => ?_⟩
  · simp [invSubBytes, subBytes]
  · simp [invSubBytes, subBytes, (sboxesAreInverse _).2]

theorem subShift_bijective : Function.Bijective subShift := by
  rw [show subShift = shiftRows ∘ subBytes from funext subShift_eq_shiftRows_subBytes]
  exact (bijective_of_iterate_four shiftRows_iterate_four).comp subBytes_bijective

/-- Row 0 is not rotated (41_round.md R121 (c)). -/
theorem byteAt_subShift_row_zero (s : Block) (c : Fin 4) : byteAt (subShift s) (4 * c.val) = romS (byteAt s (4 * c.val)) := by
  have h := matrixAt_subShift s 0 c
  rw [add_zero, ← byteAt_column, ← byteAt_column] at h
  exact h

/-- Settles O11: the two orders agree element by element, and each half is a bijection. -/
theorem subShiftCommutesAndIsBijective : Obligations.SubShiftCommutesAndIsBijective :=
  ⟨fun s => ⟨subShift_eq_shiftRows_subBytes s, subShift_eq_subBytes_shiftRows s⟩, subShift_bijective,
    byteAt_subShift_row_zero, by decide⟩

end Sys2Proof.Machine
end

section
/-! PROOF. MixColumns (41_round.md R122, R123): the column formula, the matrix, and the inverse. The square of MixColumns is
its own inverse, so mixing four times is the identity, and the inverse is mixing three times. -/

namespace Sys2Proof.Machine

/-- Settles O12: the element of row `i` and column `c`, with the column's bytes named by byte index. -/
theorem mixColumnsColumnFormula : Obligations.MixColumnsColumnFormula := by
  intro s c i
  simp only [byteAt_column]
  exact matrixAt_mixColumns s i c

/-- An XOR with a term twice is an XOR without it. -/
theorem xor_xor_cancel_left (x y : Byte) : x ^^^ (x ^^^ y) = y := by
  rw [← BitVec.xor_assoc, BitVec.xor_self, BitVec.zero_xor]

/-- The XOR of a column, from any of its bytes on. -/
theorem xor_column (a : Nat → Byte) (i : Fin 4) : a 0 ^^^ a 1 ^^^ a 2 ^^^ a 3 =
    a i ^^^ (a (i + 1 : Fin 4) ^^^ a (i + 2 : Fin 4) ^^^ a (i + 3 : Fin 4)) := by
  fin_cases i
  all_goals
    dsimp
    ac_rfl

/-- A mixed byte by its row of the matrix, 2 3 1 1 from the diagonal on (41_round.md R123 (a)). -/
theorem mixByte_eq_row (a : Nat → Byte) (i : Fin 4) : mixByte a i =
    xtime (a i) ^^^ (xtime (a (i + 1 : Fin 4)) ^^^ a (i + 1 : Fin 4)) ^^^ a (i + 2 : Fin 4) ^^^ a (i + 3 : Fin 4) :=
  calc mixByte a i = a i ^^^ (a 0 ^^^ a 1 ^^^ a 2 ^^^ a 3) ^^^ xtime (a i ^^^ a (i + 1 : Fin 4)) := rfl
    _ = _ := by
      rw [xor_column a i, xor_xor_cancel_left, xtime_xor]
      ac_rfl

/-- Mixing is additive, as xtime is (41_round.md R123 (b)). -/
theorem mixByte_xor (a b : Nat → Byte) (i : Nat) : mixByte (fun j => a j ^^^ b j) i = mixByte a i ^^^ mixByte b i := by
  simp only [mixByte, xtime_xor]
  ac_rfl

@[simp] theorem xtime_zero : xtime 0#8 = 0#8 := by decide

/-- A column of equal bytes keeps its byte (41_round.md R123 (c)). -/
theorem mixByte_const (x : Byte) (i : Nat) : mixByte (fun _ => x) i = x := by
  simp [mixByte]

theorem mixColumns_addRoundKey (s s' : Block) :
    mixColumns (addRoundKey s s') = addRoundKey (mixColumns s) (mixColumns s') := by
  refine block_ext_matrix fun r c => ?_
  simp only [matrixAt_addRoundKey, matrixAt_mixColumns, mixByte_xor]

/-- Settles O13: the matrix row by row, additivity byte by byte, and a column of equal bytes as a constant one. -/
theorem mixColumnsIsLinear : Obligations.MixColumnsIsLinear := by
  refine ⟨fun s c => ?_, mixColumns_addRoundKey, fun s c h j => ?_⟩
  · have hrow (i : Fin 4) := (matrixAt_mixColumns s i c).trans (mixByte_eq_row _ i)
    simp only [byteAt_column, byteAt_column_zero]
    refine ⟨hrow 0, (hrow 1).trans ?_, (hrow 2).trans ?_, (hrow 3).trans ?_⟩
    all_goals
      dsimp
      ac_rfl
  · simp only [byteAt_column, byteAt_column_zero] at h ⊢
    rw [matrixAt_mixColumns, mixByte_congr (b := fun _ => matrixAt s 0 c) j h, mixByte_const, h j]

/-- Indexes of a column go round. The sum is `Fin`'s own, not the one of its additive group, so that equal bytes of a column
are the same term. -/
theorem index_add_add (i m n : Fin 4) : i + m + n = i + (m + n) :=
  add_assoc i m n

/-- Mixing a column twice adds 4 times the difference of the opposite bytes: every other term of the matrix's square occurs
an even number of times. -/
theorem mixByte_mixByte (a : Nat → Byte) (i : Fin 4) :
    mixByte (mixByte a) i = a i ^^^ xtime (xtime (a i ^^^ a (i + 2 : Fin 4))) := by
  simp only [mixByte_eq_row, index_add_add, Fin.reduceAdd, Fin.isValue, Fin.add_zero, xtime_xor]
  ac_nf
  simp only [xor_xor_cancel_left]

theorem matrixAt_mixColumns_mixColumns (s : Block) (r c : Fin 4) : matrixAt (mixColumns (mixColumns s)) r c =
    matrixAt s r c ^^^ xtime (xtime (matrixAt s r c ^^^ matrixAt s (r + 2 : Fin 4) c)) := by
  rw [matrixAt_mixColumns, ← mixByte_mixByte (matrixAt s · c)]
  exact mixByte_congr r (matrixAt_mixColumns s · c)

/-- Opposite bytes keep their difference under two mixings, so two more add the same again. -/
theorem mixColumns_iterate_four (s : Block) : mixColumns (mixColumns (mixColumns (mixColumns s))) = s := by
  refine block_ext_matrix fun r c => ?_
  simp only [matrixAt_mixColumns_mixColumns, index_add_add, Fin.reduceAdd, Fin.isValue, Fin.add_zero, xtime_xor]
  ac_nf
  simp only [xor_xor_cancel_left]

/-- The products of the inverse matrix, by the bits of its four elements. -/
theorem gfMul_inverse_row (x : Byte) :
    gfMul x 0x0E = xtime (xtime (xtime x ^^^ x) ^^^ x) ∧ gfMul x 0x0B = xtime (xtime (xtime x) ^^^ x) ^^^ x ∧
    gfMul x 0x0D = xtime (xtime (xtime x ^^^ x)) ^^^ x ∧ gfMul x 0x09 = xtime (xtime (xtime x)) ^^^ x := by
  simp [gfMul]

/-- The inverse matrix is the cube of the matrix: a column mixed once, and then twice more as `mixByte_mixByte` says. -/
theorem invMixByte_eq (a : Nat → Byte) (i : Fin 4) : invMixByte a i =
    mixByte a i ^^^ xtime (xtime (mixByte a i ^^^ mixByte a (i + 2 : Fin 4))) := by
  have hrow : invMixByte a i = gfMul (a i) 0x0E ^^^ gfMul (a (i + 1 : Fin 4)) 0x0B ^^^ gfMul (a (i + 2 : Fin 4)) 0x0D ^^^
      gfMul (a (i + 3 : Fin 4)) 0x09 := rfl
  simp only [hrow, gfMul_inverse_row, mixByte_eq_row, index_add_add, Fin.reduceAdd, Fin.isValue, xtime_xor]
  ac_nf
  simp only [xor_xor_cancel_left]

theorem invMixColumns_eq_cube (s : Block) : invMixColumns s = mixColumns (mixColumns (mixColumns s)) :=
  block_ext_matrix fun r c => by
    rw [matrixAt_mixColumns_mixColumns, matrixAt_mixColumns, matrixAt_mixColumns, matrixAt_invMixColumns, invMixByte_eq]

/-- Settles O14: in both orders it is mixing four times. -/
theorem mixColumnsHasInverse : Obligations.MixColumnsHasInverse :=
  fun s => ⟨by rw [invMixColumns_eq_cube, mixColumns_iterate_four], by rw [invMixColumns_eq_cube, mixColumns_iterate_four]⟩

end Sys2Proof.Machine
end

section
/-! PROOF. The round commands (41_round.md R127-R130) at completion. -/

namespace Sys2Proof.Machine

/-- Settles O30: each arm is a completion that writes STATE. -/
theorem roundCommandsWriteState : Obligations.RoundCommandsWriteState :=
  fun _ => ⟨exists_completesWith rfl, exists_completesWith rfl, exists_completesWith rfl, fun _ => exists_completesWith rfl⟩

end Sys2Proof.Machine
end

section
/-! PROOF. The bytes of a word under XOR (10_state.md R22, R23): XOR acts on each byte, and a byte of a block is a byte of
one of its words. -/

namespace Sys2Proof.Machine

theorem wordByte_xor (v w : Word) (j : Nat) : wordByte (v ^^^ w) j = wordByte v j ^^^ wordByte w j :=
  BitVec.extractLsb'_xor

theorem wordOfBytes_xor (a0 a1 a2 a3 b0 b1 b2 b3 : Byte) :
    wordOfBytes a0 a1 a2 a3 ^^^ wordOfBytes b0 b1 b2 b3 =
      wordOfBytes (a0 ^^^ b0) (a1 ^^^ b1) (a2 ^^^ b2) (a3 ^^^ b3) := by
  rw [← wordOfBytes_wordByte (wordOfBytes a0 a1 a2 a3 ^^^ _)]
  simp only [wordByte_xor, wordByte_wordOfBytes_0, wordByte_wordOfBytes_1, wordByte_wordOfBytes_2,
    wordByte_wordOfBytes_3]

/-- A word with only its first byte set. -/
theorem wordByte_wordOfBytes_first (x : Byte) (j : Fin 4) :
    wordByte (wordOfBytes x 0 0 0) j.val = if j.val = 0 then x else 0 := by
  fin_cases j
  · exact wordByte_wordOfBytes_0 x 0 0 0
  · exact wordByte_wordOfBytes_1 x 0 0 0
  · exact wordByte_wordOfBytes_2 x 0 0 0
  · exact wordByte_wordOfBytes_3 x 0 0 0

/-- Two words that share a term differ as their other terms do. -/
theorem word_xor_xor_xor_cancel_left (x y z : Word) : (x ^^^ y) ^^^ (x ^^^ z) = y ^^^ z := by
  rw [BitVec.xor_comm x y, BitVec.xor_assoc, xor_cancel_left]

end Sys2Proof.Machine
end

section
/-! PROOF. The key schedule word by word (42_key_schedule.md R140-R145, R147): the mixing term on bytes, the words KeyNext and
KeyPrev leave, that each undoes the other, and what the index changes. -/

namespace Sys2Proof.Machine

/-- RotWord on the bytes of a word (R140). -/
@[simp] theorem rotWord_wordOfBytes (a0 a1 a2 a3 : Byte) : rotWord (wordOfBytes a0 a1 a2 a3) = wordOfBytes a1 a2 a3 a0 := by
  apply BitVec.eq_of_getLsbD_eq
  intro i hi
  simp only [rotWord, wordOfBytes, BitVec.getLsbD_append, BitVec.getLsbD_extractLsb']
  interval_cases i <;> simp

/-- SubWord on the bytes of a word (R141). -/
@[simp] theorem subWord_wordOfBytes (a0 a1 a2 a3 : Byte) :
    subWord (wordOfBytes a0 a1 a2 a3) = wordOfBytes (romS a0) (romS a1) (romS a2) (romS a3) := by
  simp only [subWord, wordByte_wordOfBytes_0, wordByte_wordOfBytes_1, wordByte_wordOfBytes_2, wordByte_wordOfBytes_3]

/-- The round constant stands in the first byte (R142). -/
theorem rconWord_eq_wordOfBytes (r : Fin 10) : rconWord r = wordOfBytes (romRcon r) 0 0 0 := by
  revert r
  decide

theorem rconWord_xor (r r' : Fin 10) : rconWord r ^^^ rconWord r' = wordOfBytes (romRcon r ^^^ romRcon r') 0 0 0 := by
  rw [rconWord_eq_wordOfBytes, rconWord_eq_wordOfBytes, wordOfBytes_xor, BitVec.xor_self]
  rfl

theorem keyMix_wordOfBytes (a0 a1 a2 a3 : Byte) (r : Fin 10) :
    keyMix (wordOfBytes a0 a1 a2 a3) r = wordOfBytes (romS a1 ^^^ romRcon r) (romS a2) (romS a3) (romS a0) := by
  rw [keyMix, rotWord_wordOfBytes, subWord_wordOfBytes, rconWord_eq_wordOfBytes, wordOfBytes_xor]
  simp

/-- A word with the mixing term added, as R143 and R144 write it. -/
theorem xor_keyMix (w w3 : Word) (r : Fin 10) : w ^^^ keyMix w3 r = w ^^^ subWord (rotWord w3) ^^^ rconWord r :=
  (BitVec.xor_assoc _ _ _).symm

section

variable (k : Block) (r r' : Fin 10)

theorem blockWord_keyNext_zero : blockWord (keyNext k r) 0 = blockWord k 0 ^^^ keyMix (blockWord k 3) r :=
  blockWord_blockOfWords_0 _ _ _ _

/-- A later word of KeyNext is made from the updated word before it (R143). -/
theorem blockWord_keyNext_succ (j : Fin 3) :
    blockWord (keyNext k r) j.succ = blockWord k j.succ ^^^ blockWord (keyNext k r) j.castSucc := by
  fin_cases j <;> simp [keyNext]

/-- A later word of KeyPrev is made from the word before it, not yet reverted (R144). -/
theorem blockWord_keyPrev_succ (j : Fin 3) :
    blockWord (keyPrev k r) j.succ = blockWord k j.succ ^^^ blockWord k j.castSucc := by
  fin_cases j <;> simp [keyPrev]

theorem blockWord_keyPrev_zero :
    blockWord (keyPrev k r) 0 = blockWord k 0 ^^^ keyMix (blockWord (keyPrev k r) 3) r := by
  simp [keyPrev]

/-- KeyPrev undoes KeyNext: the later words first, since word 0 takes the mixing term off with word 3 already back (R145). -/
theorem keyPrev_keyNext : keyPrev (keyNext k r) r = k := by
  have hsucc (j : Fin 3) : blockWord (keyPrev (keyNext k r) r) j.succ = blockWord k j.succ := by
    rw [blockWord_keyPrev_succ, blockWord_keyNext_succ, xor_cancel_right]
  have h3 : blockWord (keyPrev (keyNext k r) r) 3 = blockWord k 3 := hsucc 2
  refine block_ext_words fun j => ?_
  cases j using Fin.cases with
  | zero => rw [blockWord_keyPrev_zero, h3, blockWord_keyNext_zero, xor_cancel_right]
  | succ j => exact hsucc j

/-- KeyNext undoes KeyPrev: each later word cancels the word before it, which is already back (R145). -/
theorem keyNext_keyPrev : keyNext (keyPrev k r) r = k := by
  refine block_ext_words fun j => ?_
  induction j using Fin.induction with
  | zero => rw [blockWord_keyNext_zero, blockWord_keyPrev_zero, xor_cancel_right]
  | succ j ih => rw [blockWord_keyNext_succ, ih, blockWord_keyPrev_succ, xor_cancel_right]

/-- The difference of two indexes enters with the mixing term in word 0, and each later word takes it from the word before
(R147 (b)). -/
theorem blockWord_keyNext_xor (j : Fin 4) :
    blockWord (keyNext k r) j ^^^ blockWord (keyNext k r') j = rconWord r ^^^ rconWord r' := by
  induction j using Fin.induction with
  | zero =>
    rw [blockWord_keyNext_zero, blockWord_keyNext_zero, word_xor_xor_xor_cancel_left, keyMix, keyMix,
      word_xor_xor_xor_cancel_left]
  | succ j ih => rw [blockWord_keyNext_succ, blockWord_keyNext_succ, word_xor_xor_xor_cancel_left, ih]

end

/-- Settles O20: the two round trips, word by word, make KeyPrev at an index the inverse of KeyNext at it. -/
theorem keyScheduleRoundTrips : Obligations.KeyScheduleRoundTrips :=
  ⟨fun k r => ⟨keyPrev_keyNext k r, keyNext_keyPrev k r⟩, fun r => Function.bijective_iff_has_inverse.mpr
    ⟨fun k => keyPrev k r, fun k => keyPrev_keyNext k r, fun k => keyNext_keyPrev k r⟩⟩

/-- Settles O21: byte `i` is byte `i mod 4` of its word, and every word differs by the two constants, in its first byte. -/
theorem keyNextIndexShowsInFirstBytes : Obligations.KeyNextIndexShowsInFirstBytes := by
  intro k r r' i
  obtain ⟨w, j, hi⟩ : ∃ w j : Fin 4, i.val = 4 * w.val + j.val :=
    ⟨⟨i.val / 4, by omega⟩, ⟨i.val % 4, by omega⟩, (Nat.div_add_mod i.val 4).symm⟩
  have hj : i.val % 4 = j.val := by omega
  rw [hj, hi, ← wordByte_blockWord, ← wordByte_blockWord, ← wordByte_xor, blockWord_keyNext_xor, rconWord_xor,
    wordByte_wordOfBytes_first]

/-- Settles O17: each operation on the bytes of a word, and the mixing term as their composition. -/
theorem keyMixRotatesSubstitutesAddsConstant : Obligations.KeyMixRotatesSubstitutesAddsConstant :=
  fun a0 a1 a2 a3 r => ⟨rotWord_wordOfBytes a0 a1 a2 a3, subWord_wordOfBytes a0 a1 a2 a3, rconWord_eq_wordOfBytes r,
    keyMix_wordOfBytes a0 a1 a2 a3 r⟩

/-- Settles O18: the four words KeyNext leaves, word 0 with its mixing term written out. -/
theorem keyNextUpdatesWordsInOrder : Obligations.KeyNextUpdatesWordsInOrder :=
  fun k r => ⟨(blockWord_keyNext_zero k r).trans (xor_keyMix _ _ r), blockWord_keyNext_succ k r 0,
    blockWord_keyNext_succ k r 1, blockWord_keyNext_succ k r 2⟩

/-- Settles O19: the four words KeyPrev leaves, word 0 with its mixing term written out. -/
theorem keyPrevRevertsWordsTopDown : Obligations.KeyPrevRevertsWordsTopDown :=
  fun k r => ⟨blockWord_keyPrev_succ k r 2, blockWord_keyPrev_succ k r 1, blockWord_keyPrev_succ k r 0,
    (blockWord_keyPrev_zero k r).trans (xor_keyMix _ _ r)⟩

/-- Settles O31: at a legal index each arm is a completion that writes KEY (R148, R149). -/
theorem keyCommandsWriteKey : Obligations.KeyCommandsWriteKey :=
  fun _ r => ⟨exists_completesWith (withRoundIndex_ofNat r _), exists_completesWith (withRoundIndex_ofNat r _)⟩

end Sys2Proof.Machine
end

section
/-! PROOF. Encryption round by round (43_block_driver.md R160): the chain of round keys, the rounds with MixColumns on, and the
driver's loop as these two. -/

namespace Sys2Proof.Machine

/-- The chain starts at the master key (42_key_schedule.md R146). -/
@[simp] theorem keyChain_zero (k : Block) : keyChain k 0 = k := rfl

/-- The chain's own step: `key[i + 1] = KeyNext(key[i], i)` (42_key_schedule.md R146). -/
theorem keyChain_succ (k : Block) (i : Fin 10) : keyChain k (i.val + 1) = keyNext (keyChain k i.val) i := by
  rw [keyChain, keyChain, List.take_add_one, List.foldl_append]
  simp

/-- Whitening and then `n` rounds with MixColumns on, round `i` under `key[i]`; `encryptBlock_succ` ties it to the driver. -/
def wholeRounds (p k : Block) : Nat → Block
  | 0 => addRoundKey p k
  | n + 1 => roundFn (wholeRounds p k n) (keyChain k (n + 1)) false

/-- One more turn of the driver's loop takes the next index. -/
theorem midIndexes_succ : ∀ i : Fin 9, midIndexes (i.succ.val + 1) = midIndexes (i.castSucc.val + 1) ++ [i.succ] := by
  decide

/-- Before round `i + 1` the loop holds the state after `i` rounds with MixColumns on, and `key[i + 1]` (R160). -/
theorem foldl_midRound (p k : Block) (i : Fin 10) :
    (midIndexes (i.val + 1)).foldl midRound (addRoundKey p k, keyNext k 0) =
      (wholeRounds p k i.val, keyChain k (i.val + 1)) := by
  induction i using Fin.induction with
  | zero =>
    rw [keyChain_succ]
    simp [midIndexes, wholeRounds]
  | succ i ih =>
    rw [midIndexes_succ, List.foldl_append, ih, keyChain_succ k i.succ]
    simp [midRound, wholeRounds]

/-- Encryption is whitening, all rounds but the last with MixColumns on, and the last round (R160). -/
theorem encryptBlock_succ (p k : Block) (i : Fin 10) (nomix : Bool) :
    encryptBlock p k (i.val + 1) nomix = roundFn (wholeRounds p k i.val) (keyChain k (i.val + 1)) nomix := by
  rw [encryptBlock, foldl_midRound]

/-- A legal round count is one more than a round index (30_encoding.md R73). -/
theorem exists_index_of_roundCount {n : Nat} (h : 1 ≤ n) (h' : n ≤ 10) : ∃ i : Fin 10, n = i.val + 1 :=
  ⟨⟨n - 1, by omega⟩, (Nat.sub_add_cancel h).symm⟩

/-- With MixColumns on in the last round too, encryption is the rounds with MixColumns on. -/
theorem encryptBlock_false (p k : Block) {n : Nat} (h : 1 ≤ n) (h' : n ≤ 10) :
    encryptBlock p k n false = wholeRounds p k n := by
  obtain ⟨i, rfl⟩ := exists_index_of_roundCount h h'
  exact encryptBlock_succ p k i false

/-- Settles O25: the rounds before round `n + 1` are `n` rounds with MixColumns on. -/
theorem encryptionAddsARound : Obligations.EncryptionAddsARound := by
  intro p k n nomix h h'
  rw [encryptBlock_false p k h (by omega)]
  exact encryptBlock_succ p k ⟨n, by omega⟩ nomix

/-- Settles O24: no round stands before the last one. -/
theorem oneRoundEncryption : Obligations.OneRoundEncryption :=
  fun p k => ⟨encryptBlock_succ p k 0 true, encryptBlock_succ p k 0 false⟩

/-- Settles O32: at a legal round count the arm is a completion that writes STATE (R164). -/
theorem encryptWritesStateKeepsKey : Obligations.EncryptWritesStateKeepsKey :=
  fun _ n _ h h' => exists_completesWith (withRoundCount_ofNat n h h' _)

end Sys2Proof.Machine
end

section
/-! PROOF. Encryption is a bijection (43_block_driver.md R160), since each step of each round is (41_round.md R121, R123,
R124). -/

namespace Sys2Proof.Machine

theorem addRoundKey_bijective (k : Block) : Function.Bijective (addRoundKey · k) :=
  Function.Involutive.bijective fun s => (addRoundKeyXorsAndUndoes s k).2

theorem mixColumns_bijective : Function.Bijective mixColumns :=
  bijective_of_iterate_four mixColumns_iterate_four

/-- A round is a bijection under every round key, with MixColumns and without. -/
theorem roundFn_bijective (k : Block) (nomix : Bool) : Function.Bijective (roundFn · k nomix) := by
  cases nomix with
  | true => exact (addRoundKey_bijective k).comp subShift_bijective
  | false => exact (addRoundKey_bijective k).comp (mixColumns_bijective.comp subShift_bijective)

theorem wholeRounds_bijective (k : Block) (n : Nat) : Function.Bijective (wholeRounds · k n) := by
  induction n with
  | zero => exact addRoundKey_bijective k
  | succ n ih => exact (roundFn_bijective (keyChain k (n + 1)) false).comp ih

/-- Settles O26: the last round after the rounds before it. -/
theorem encryptionIsBijective : Obligations.EncryptionIsBijective := by
  intro k n nomix h h'
  obtain ⟨i, rfl⟩ := exists_index_of_roundCount h h'
  simp only [encryptBlock_succ]
  exact (roundFn_bijective (keyChain k (i.val + 1)) nomix).comp (wholeRounds_bijective k i.val)

end Sys2Proof.Machine
end

section
/-! PROOF. Commands run one after another (43_block_driver.md R165, R173): what a sequence does to STATE and KEY is the
composition of what its commands do. -/

namespace Sys2Proof.Machine

theorem execAll_append {is js : List Instr} {s t : State} (h : execAll is s = .next t) :
    execAll (is ++ js) s = execAll js t := by
  induction is generalizing s with
  | nil =>
    cases h
    rfl
  | cons i rest ih =>
    simp only [List.cons_append, execAll] at h ⊢
    split at h
    · exact ih h
    · cases h
    · cases h

theorem CompletesWith.trans {s t u : State} {st key st' key' : Block} {res res' : Byte}
    (h : CompletesWith s t st key res) (h' : CompletesWith t u st' key' res') : CompletesWith s u st' key' res' :=
  { h' with
    ovr := h'.ovr.trans h.ovr
    err := h'.err.trans h.err
    host := h'.host.trans h.host
    turns := h'.turns.trans h.turns }

/-- From every state the commands all complete, act on (STATE, KEY) as `f` does, and keep RESULT. -/
def ActsAs (is : List Instr) (f : Block × Block → Block × Block) : Prop :=
  ∀ s : State, ∃ t, execAll is s = .next t ∧
    CompletesWith s t (f (s.stateReg, s.keyReg)).1 (f (s.stateReg, s.keyReg)).2 s.result

/-- A command that completes acts alone as its completion says. -/
theorem actsAs_singleton {i : Instr} {f : Block × Block → Block × Block}
    (h : ∀ s : State, ∃ t, exec i s = .next t ∧
      CompletesWith s t (f (s.stateReg, s.keyReg)).1 (f (s.stateReg, s.keyReg)).2 s.result) : ActsAs [i] f := by
  intro s
  obtain ⟨t, ht, hc⟩ := h s
  exact ⟨t, by rw [execAll, ht]; rfl, hc⟩

theorem ActsAs.append {is js : List Instr} {f g : Block × Block → Block × Block} (hf : ActsAs is f) (hg : ActsAs js g) :
    ActsAs (is ++ js) (g ∘ f) := by
  intro s
  obtain ⟨t, ht, hc⟩ := hf s
  obtain ⟨u, hu, hd⟩ := hg t
  rw [hc.stateReg, hc.keyReg, hc.result] at hd
  exact ⟨u, (execAll_append ht).trans hu, hc.trans hd⟩

theorem actsAs_addkey : ActsAs [.addkey] fun d => (addRoundKey d.1 d.2, d.2) :=
  actsAs_singleton fun _ => exists_completesWith rfl

theorem actsAs_round (nomix : Bool) : ActsAs [.round nomix] fun d => (roundFn d.1 d.2 nomix, d.2) :=
  actsAs_singleton fun _ => exists_completesWith rfl

theorem actsAs_keynext (r : Fin 10) : ActsAs [.keynext (BitVec.ofNat 4 r.val)] fun d => (d.1, keyNext d.2 r) :=
  actsAs_singleton fun _ => exists_completesWith (withRoundIndex_ofNat r _)

theorem actsAs_keyprev (r : Fin 10) : ActsAs [.keyprev (BitVec.ofNat 4 r.val)] fun d => (d.1, keyPrev d.2 r) :=
  actsAs_singleton fun _ => exists_completesWith (withRoundIndex_ofNat r _)

end Sys2Proof.Machine
end

section
/-! PROOF. The step commands do what ENCRYPT does (43_block_driver.md R165), and KEYPREV 3, 2, 1, 0 walk `key[4]` back to the
master key (R173). -/

namespace Sys2Proof.Machine

/-- One more pair of commands: those before it carry no `nomix`. -/
theorem stepCommands_succ (n : Nat) (nomix : Bool) :
    stepCommands (n + 1) nomix = stepCommands n false ++ ([Instr.keynext (BitVec.ofNat 4 n)] ++ [Instr.round nomix]) := by
  have hflag : ∀ i ∈ List.range n, (decide (i + 1 = n + 1) && nomix) = (decide (i + 1 = n) && false) := by
    intro i hi
    have hlt : i < n := List.mem_range.mp hi
    simp [hlt.ne]
  simp only [stepCommands, List.range_succ, List.flatMap_append, List.cons_append]
  rw [List.flatMap_congr fun i hi => by rw [hflag i hi]]
  simp

/-- The last pair after the pairs before it: KEYNEXT makes the key of the round that ROUND runs. -/
theorem actsAs_stepCommands_succ {i : Fin 10}
    (h : ActsAs (stepCommands i.val false) fun d => (wholeRounds d.1 d.2 i.val, keyChain d.2 i.val)) (nomix : Bool) :
    ActsAs (stepCommands (i.val + 1) nomix) fun d =>
      (roundFn (wholeRounds d.1 d.2 i.val) (keyChain d.2 (i.val + 1)) nomix, keyChain d.2 (i.val + 1)) := by
  rw [stepCommands_succ]
  simp only [keyChain_succ]
  exact (h.append ((actsAs_keynext i).append (actsAs_round nomix)) :)

/-- Without `nomix`, by induction on the pairs: the rounds with MixColumns on, and the chain of round keys. -/
theorem actsAs_stepCommands {n : Nat} (h : n ≤ 10) :
    ActsAs (stepCommands n false) fun d => (wholeRounds d.1 d.2 n, keyChain d.2 n) := by
  induction n with
  | zero => exact actsAs_addkey
  | succ n ih => exact actsAs_stepCommands_succ (i := ⟨n, by omega⟩) (ih (by omega)) false

/-- Settles O27: both are all rounds but the last with MixColumns on, and then the last round. -/
theorem stepCommandsEqualEncrypt : Obligations.StepCommandsEqualEncrypt := by
  intro n nomix s h h'
  obtain ⟨u, hu, hcu⟩ := encryptWritesStateKeepsKey s n nomix h h'
  obtain ⟨i, rfl⟩ := exists_index_of_roundCount h h'
  obtain ⟨t, ht, hct⟩ := actsAs_stepCommands_succ (actsAs_stepCommands (by omega)) nomix s
  dsimp only at hct
  have hst := hct.stateReg.trans (encryptBlock_succ _ _ i nomix).symm
  exact ⟨t, u, ht, hu, hst, hcu.stateReg.trans hst.symm, hct.keyReg, hcu.keyReg⟩

/-- KEYPREV 3, 2, 1, 0 undo the four KEYNEXT of the chain, the last one first (42_key_schedule.md R145, R146). -/
theorem masterKey_keyChain (k : Block) : masterKey (keyChain k 4) = k := by
  have hchain : keyChain k 4 = keyNext (keyNext (keyNext (keyNext k 0) 1) 2) 3 := rfl
  simp only [masterKey, hchain, keyPrev_keyNext]

theorem actsAs_masterKeyCommands : ActsAs masterKeyCommands fun d => (d.1, masterKey d.2) :=
  (actsAs_keyprev 3).append ((actsAs_keyprev 2).append ((actsAs_keyprev 1).append (actsAs_keyprev 0)))

/-- Settles O22: the commands act on KEY as the function does. -/
theorem fourKeyprevsRecoverMasterKey : Obligations.FourKeyprevsRecoverMasterKey := by
  refine ⟨masterKey_keyChain, fun k s hs => ?_⟩
  obtain ⟨t, ht, hc⟩ := actsAs_masterKeyCommands s
  have hkey : masterKey s.keyReg = k := by rw [hs, masterKey_keyChain]
  exact ⟨t, ht, hc.keyReg.trans hkey, hc.stateReg, hc.result⟩

end Sys2Proof.Machine
end

section
/-! PROOF. The known answer (43_block_driver.md R161): nine rounds, and then the tenth with and without MixColumns. -/

namespace Sys2Proof.Machine

/-- The plaintext of R161. -/
def knownPlain : Block :=
  #v[0x32, 0x43, 0xf6, 0xa8, 0x88, 0x5a, 0x30, 0x8d, 0x31, 0x31, 0x98, 0xa2, 0xe0, 0x37, 0x07, 0x34]

/-- The key of R161. -/
def knownKey : Block :=
  #v[0x2b, 0x7e, 0x15, 0x16, 0x28, 0xae, 0xd2, 0xa6, 0xab, 0xf7, 0x15, 0x88, 0x09, 0xcf, 0x4f, 0x3c]

/-- The state before round 10, and `key[10]`; `foldl_midRound_known` ties them to the driver's loop. -/
def knownBeforeLast : Block × Block :=
  (#v[0xeb, 0x40, 0xf2, 0x1e, 0x59, 0x2e, 0x38, 0x84, 0x8b, 0xa1, 0x13, 0xe7, 0x1b, 0xc3, 0x42, 0xd2],
    #v[0xd0, 0x14, 0xf9, 0xa8, 0xc9, 0xee, 0x25, 0x89, 0xe1, 0x3f, 0x0c, 0xc8, 0xb6, 0x63, 0x0c, 0xa6])

theorem foldl_midRound_known :
    (midIndexes 10).foldl midRound (addRoundKey knownPlain knownKey, keyNext knownKey 0) = knownBeforeLast := by
  decide +kernel

theorem encryptBlock_known (nomix : Bool) :
    encryptBlock knownPlain knownKey 10 nomix = roundFn knownBeforeLast.1 knownBeforeLast.2 nomix := by
  rw [encryptBlock, foldl_midRound_known]

/-- Settles O23: the tenth round, computed with and without MixColumns. -/
theorem knownAnswerNeedsNomix : Obligations.KnownAnswerNeedsNomix :=
  ⟨(encryptBlock_known true).trans (by decide), (encryptBlock_known false).trans (by decide)⟩

end Sys2Proof.Machine
end

section
/-! PROOF. The control family (44_control.md): NOP at completion, and the host write to STATUS. -/

namespace Sys2Proof.Machine

/-- Settles O28: NOP is the completion that writes every data register back as it was. -/
theorem nopCompletes : Obligations.NopCompletes :=
  fun _ => exists_completesWith rfl

/-- The write is `State.clearOverrun`, which looks at bit 1 of the word alone and never at BUSY (R182). -/
theorem hostWrite_status (v : Word) (s : State) :
    hostWrite .status v s = if v.getLsbD 1 then { s with ovr := false } else s := rfl

/-- Settles O43: the corner cases and CLROVR are the general rule at words whose bit 1 is known. -/
theorem statusWriteClearsOverrun : Obligations.StatusWriteClearsOverrun := by
  intro s v
  have clears {w : Word} (h : w.getLsbD 1 = true) := (hostWrite_status w s).trans (if_pos h)
  have keeps {w : Word} (h : ¬ w.getLsbD 1 = true) := (hostWrite_status w s).trans (if_neg h)
  exact ⟨hostWrite_status v s, keeps (by decide), clears (by decide), rfl, clears (by decide)⟩

end Sys2Proof.Machine
end

section
/-! PROOF. What a CMD write does (60_exceptions.md R201, R206, R208): it is dropped, rejected with one code, or accepted; and
which writes are dropped while BUSY = 1. -/

namespace Sys2Proof.Machine

/-- The registers that are written only while BUSY = 0 share one answer to a write while BUSY = 1 (R206). -/
theorem hostWrite_dropped {r : Reg} {s : State} (hb : s.busy = true)
    (hr : r = .cmd ∨ (∃ k, r = .stateW k) ∨ ∃ k, r = .keyW k) (v : Word) : hostWrite r v s = s.overrun := by
  rcases hr with rfl | ⟨k, rfl⟩ | ⟨k, rfl⟩ <;> exact if_pos hb

theorem commandWrite_reject {s : State} {v : Word} {why : Reject} (hb : s.busy = false) (hd : decode v = .error why) :
    commandWrite v s = s.reject why := by
  simp [commandWrite, hb, hd]

/-- With nothing pending the engine's turn does nothing (log 2). -/
theorem engineTurn_idle {s : State} (hb : s.busy = false) : engineTurn s = .next s := by
  simp [engineTurn, hb]

/-- No rejection has the code of OK (10_state.md R26). -/
theorem errCode_ne_errOk (why : Reject) : errCode why ≠ errOk := by
  cases why <;> decide

/-- Settles O40: each guard picks its outcome of `commandWrite`, and the rule's example words are decoded. -/
theorem cmdWriteHasOneOutcome : Obligations.CmdWriteHasOneOutcome :=
  ⟨fun v _ => ⟨fun hb => hostWrite_dropped hb (.inl rfl) v, commandWrite_reject, commandWrite_reject, commandWrite_reject,
    fun hb _ hd => commandWrite_accept hb hd⟩, by decide⟩

/-- Settles O41: a rejection leaves BUSY = 0, and an engine turn of an idle block does nothing. -/
theorem rejectionChangesOnlyErr : Obligations.RejectionChangesOnlyErr := by
  intro v s why hb hd
  have hw : hostWrite .cmd v s = s.reject why := commandWrite_reject hb hd
  have hidle : (hostWrite .cmd v s).busy = false := by rw [hw, reject_busy, hb]
  exact ⟨hw, errCode_ne_errOk why, engineTurn_idle hidle⟩

/-- Settles O42: three kinds of register drop the write, and the others never look at BUSY. -/
theorem busyWritesAreDropped : Obligations.BusyWritesAreDropped :=
  fun s v hb => ⟨hostWrite_dropped hb (.inl rfl) v, fun k => hostWrite_dropped hb (.inr (.inl ⟨k, rfl⟩)) v,
    fun k => hostWrite_dropped hb (.inr (.inr ⟨k, rfl⟩)) v, hostWrite_status v s, rfl, rfl, fun _ => rfl⟩

end Sys2Proof.Machine
end

section
/-! PROOF. What can stop a step (60_exceptions.md R207, R210, R220): an accepted command completes, and the only fault is a
malformed access of the host. -/

namespace Sys2Proof.Machine

/-- Settles O37: under the invariant a pending PCMD is a well-formed command, and its completion keeps OVR and ERR. -/
theorem engineNeverFailsOnAcceptedCommand : Obligations.EngineNeverFailsOnAcceptedCommand := by
  intro s hi hb ht
  obtain ⟨i, hd⟩ := hi.pendingLegal hb
  obtain ⟨st, key, res, hx⟩ := exec_wf i s.takeTurn (decode_ok_wf hd)
  exact ⟨_, (step_engine ht hb hd).trans hx, rfl, rfl, rfl⟩

/-- The engine raises no fault (R220). -/
theorem engineTurn_ne_fault (s : State) (f : Fault) : engineTurn s ≠ .fault f := by
  rcases engineTurn_cases s with ⟨-, e⟩ | ⟨-, _, _, _, _, -, e, hx⟩ | ⟨-, -, e⟩
  · simp [e]
  · simp [e, hx]
  · simp [e]

/-- A host turn faults only at a malformed access (20_memory.md R54, R55). -/
theorem malformed_of_hostTurn_fault {s : State} {f : Fault} (h : hostTurn s = .fault f) :
    ∃ addr width, classify addr width = .malformed ∧ f = .busError addr ∧
      ((∃ t, s.hostStmt = some (.memRead t addr width)) ∨ ∃ v, s.hostStmt = some (.memWrite addr width v)) := by
  rcases hostTurn_cases s with
    ⟨_, _, e⟩ | ⟨_, _, e⟩ | ⟨_, _, _, e⟩ | ⟨addr, width, hc, hs, e⟩ | ⟨_, _, _, e⟩ <;> cases e.symm.trans h
  exact ⟨addr, width, hc, rfl, hs⟩

/-- On the host's turn a malformed access is a bus error, a read and a write alike (R207). -/
theorem step_of_malformed {s : State} {addr : Nat} {width : Width} (ht : s.nextTurn = .host)
    (hc : classify addr width = .malformed)
    (hs : (∃ t, s.hostStmt = some (.memRead t addr width)) ∨ ∃ v, s.hostStmt = some (.memWrite addr width v)) :
    step s = .fault (.busError addr) := by
  rcases hs with ⟨t, hs⟩ | ⟨v, hs⟩
  · simp [step_host ht hs, hostExec, busRead, hc]
  · simp [step_host ht hs, hostExec, busWrite, hc]

/-- Settles O48: the engine raises no fault, the reset event always goes on, and the host faults at malformed accesses alone. -/
theorem busErrorIsTheOnlyFault : Obligations.BusErrorIsTheOnlyFault := by
  intro s f
  constructor
  · intro h
    rcases step_of_turn s with ⟨-, e⟩ | ⟨ht, e⟩ | ⟨-, e⟩
    · exact absurd (e.symm.trans h) (engineTurn_ne_fault _ _)
    · exact ⟨ht, malformed_of_hostTurn_fault (s := s.takeTurn) (e.symm.trans h)⟩
    · cases e.symm.trans h
  · rintro ⟨ht, addr, width, hc, rfl, hs⟩
    exact step_of_malformed ht hc hs

end Sys2Proof.Machine
end

section
/-! PROOF. Reset (70_reset_and_hazards.md R230, R231; 10_state.md R34): the reset event leaves zeros and an idle block, and a
block of zeros reads 0. -/

namespace Sys2Proof.Machine

/-- On the reset event's turn the step applies it (R230). -/
theorem step_reset {s : State} (h : s.nextTurn = .reset) : step s = .next s.takeTurn.applyReset := by
  rw [step, h, runTurn]

/-- With nothing pending an engine turn is only taken off the list (log 2). -/
theorem step_engine_idle {s : State} (h : s.nextTurn = .engine) (hb : s.busy = false) : step s = .next s.takeTurn := by
  rw [step, h, runTurn, engineTurn_idle (by rw [takeTurn_busy, hb])]

/-- Every byte of the reset value of STATE and KEY is 0 (10_state.md R34). -/
@[simp] theorem byteAt_replicate_zero (i : Nat) : byteAt (Vector.replicate 16 0) i = 0 := by
  simp [byteAt]

/-- Every word of the reset value of STATE and KEY is 0 (10_state.md R34). -/
@[simp] theorem blockWord_replicate_zero (k : Fin 4) : blockWord (Vector.replicate 16 0) k = 0 := by
  simp only [blockWord, byteAt_replicate_zero]
  decide

/-- Settles O54: `applyReset` zeroes each register and so clears BUSY, and an engine turn of an idle block only takes itself
off the list. -/
theorem resetEventZeroesTheBlock : Obligations.ResetEventZeroesTheBlock := by
  intro s h
  refine ⟨s.takeTurn.applyReset, step_reset h, fun _ => ⟨?_, ?_⟩, rfl, rfl, rfl, rfl, rfl, rfl, ?_⟩
  · rw [applyReset_stateReg, byteAt_replicate_zero]
  · rw [applyReset_keyReg, byteAt_replicate_zero]
  · rintro u rfl
    exact ⟨_, step_engine_idle rfl rfl, rfl, rfl, rfl, rfl, rfl, rfl⟩

/-- Settles O55: with BUSY = 0 the data registers are read themselves, and their words are 0. -/
theorem resetReadsAsZeroButId : Obligations.ResetReadsAsZeroButId := by
  refine ⟨rfl, by decide, ?_, rfl, fun k => ?_, fun k => ?_, fun _ => rfl⟩
  · rw [hostRead_result_idle rfl]
    rfl
  · exact (hostRead_stateW_idle rfl k).trans (blockWord_replicate_zero k)
  · exact (hostRead_keyW_idle rfl k).trans (blockWord_replicate_zero k)

end Sys2Proof.Machine
end

section
/-! PROOF. The end of a run (70_reset_and_hazards.md R249): with no turn listed and nothing pending the host moves (log 2), and
a halted host has no statement to execute. -/

namespace Sys2Proof.Machine

/-- With no turn listed there is none to take off the list. -/
theorem takeTurn_of_turns_nil {s : State} (h : s.turns = []) : s.takeTurn = s := by
  rw [State.takeTurn, h, List.tail_nil, ← h]

/-- With no turn listed and nothing pending the host moves next (log 2). -/
theorem nextTurn_of_turns_nil_idle {s : State} (h : s.turns = []) (hb : s.busy = false) : s.nextTurn = .host := by
  simp [State.nextTurn, h, hb]

/-- A host that has halted has no next statement (30_encoding.md R83). -/
theorem hostStmt_of_halted {s : State} (h : s.host.halted = true) : s.hostStmt = none :=
  if_pos h

/-- With no statement left a host turn is only taken off the list (log 9, 18). -/
theorem step_host_none {s : State} (h : s.nextTurn = .host) (hs : s.hostStmt = none) : step s = .next s.takeTurn := by
  rw [step, h, runTurn, hostTurn, takeTurn_hostStmt, hs]

/-- Settles O60: it is the host's turn, a halted host has no statement, and no turn is listed. -/
theorem endedRunStaysAsItIs : Obligations.EndedRunStaysAsItIs := by
  rintro s ⟨hhalted, hb⟩ hturns
  calc step s
    _ = .next s.takeTurn := step_host_none (nextTurn_of_turns_nil_idle hturns hb) (hostStmt_of_halted hhalted)
    _ = .next s := by rw [takeTurn_of_turns_nil hturns]

end Sys2Proof.Machine
end
